-- ==== Sys2Proof/Word.lean ====
section
/-! DEFINITION. The value types of the core: 32-bit words and register numbers (spec/00_scope.md R9, R10;
spec/10_state.md R22). -/

namespace Sys2Proof

/-- The set `Int32` of rule R9, held as its 32-bit two's-complement pattern (R10): `sint` of the rule is
`BitVec.toInt`, `bits` is the word itself. -/
abbrev Word := BitVec 32

/-- A register index 0 to 31 (R22). -/
abbrev Reg := Fin 32

/-- The range of `Int32`: -2^31 to 2^31 - 1 (R9). -/
abbrev InInt32 (v : Int) : Prop := -2147483648 ≤ v ∧ v ≤ 2147483647

end Sys2Proof
end

