-- ==== Sys2Proof/Syntax.lean ====
section
/-! DEFINITION. Instructions, instruction records and the assembler's error kinds as data
(spec/30_encoding.md R81, R83, R108). -/

namespace Sys2Proof

/-- The eight opcodes of the closed opcode set (R83). -/
inductive Op where
  | add | sub | and | or | lw | sw | beq | nop
  deriving DecidableEq, Repr

/-- One instruction with exactly the fields its format has (R83), one constructor per row of
spec/opcode_table.json. `rs` is operand A (the base of LW and SW, D13), `rt` operand B (LW's destination). -/
inductive Instr where
  /-- ADD rd, rs, rt (R181). -/
  | add (rd rs rt : Reg)
  /-- SUB rd, rs, rt (R182). -/
  | sub (rd rs rt : Reg)
  /-- AND rd, rs, rt (R183). -/
  | and (rd rs rt : Reg)
  /-- OR rd, rs, rt (R184). -/
  | or (rd rs rt : Reg)
  /-- LW rt, imm(rs): `imm` is a signed byte offset (R191). -/
  | lw (rt rs : Reg) (imm : Word)
  /-- SW rt, imm(rs): `imm` is a signed byte offset (R192). -/
  | sw (rt rs : Reg) (imm : Word)
  /-- BEQ rs, rt, imm: `imm` is a signed word displacement (R201). -/
  | beq (rs rt : Reg) (imm : Word)
  /-- NOP (R211). -/
  | nop
  deriving DecidableEq, Repr

/-- An instruction record in the form a host or the parser hands it over: the optional fields of R81 are
explicit options and nothing bounds them, because `loadProgram` is what refuses the ill-formed ones (R217). -/
structure RawRecord where
  op : Op
  rd : Option Nat
  rs : Option Nat
  rt : Option Nat
  imm : Option Int
  target : Option Int
  text : String
  pc : Int
  deriving DecidableEq, Repr

/-- An instruction record of a loaded program (R81): the typed instruction, the source text, the program
address. The fields `op`, `rd`, `rs`, `rt`, `imm` and `target` are views of `instr` and `pc`
(Machine/Operands.lean and Machine/Records.lean); R85's invariant on `target` then holds by construction. -/
structure Record where
  instr : Instr
  text : String
  pc : Int
  deriving DecidableEq, Repr

/-- The kinds of parse error (R108). -/
inductive ParseErrorKind where
  | unknownOpcode | invalidLabel | duplicateLabel | wrongOperandCount | invalidRegister
  | invalidMemOffset | unresolvedLabel
  deriving DecidableEq, Repr

end Sys2Proof
end

