-- ==== Sys2Proof/Config.lean ====
section
/-! DEFINITION. The parameters the spec leaves OPEN (spec/00_scope.md R7, R8; spec/93_implementation_defined.md
I1, I2) and its one free value, the text of a parse-error message (I8). -/

namespace Sys2Proof

/-- MISALIGN_POLICY: what a data address that is no multiple of 4 selects (spec/20_memory.md R63). -/
inductive MisalignPolicy where
  | truncate
  | outOfRange
  deriving DecidableEq, Repr, Inhabited

/-- The OPEN parameters of R7. They are fixed for the life of a model instance (R20). -/
structure Params where
  /-- MEM_WORDS. -/
  memWords : Nat
  /-- MISALIGN_POLICY. -/
  misalign : MisalignPolicy
  deriving DecidableEq, Repr

/-- 1 <= MEM_WORDS <= 2^29 (R7, R8). -/
abbrev Params.InBounds (p : Params) : Prop := 1 ≤ p.memWords ∧ p.memWords ≤ 2 ^ 29

namespace Config

/-- An unconstrained number from which `Config.params` takes MEM_WORDS (log entry 1). -/
opaque openMemWords : Nat

/-- MISALIGN_POLICY of the constructed machine, open (log entry 1). -/
opaque openMisalign : MisalignPolicy

/-- The parameters of the machine at construction: every MEM_WORDS from 1 to 2^29 and either policy is
possible, none is known (DESIGN CHOICE, log entry 1). -/
def params : Params := { memWords := 1 + openMemWords % 2 ^ 29, misalign := openMisalign }

/-- The text of the message of a parse error of this kind on this line: any text (R108, I8), log entry 2. -/
opaque parseMessage : ParseErrorKind → Nat → String

end Config

end Sys2Proof
end

