-- ==== Sys2Proof/WellFormed.lean ====
section
/-! DEFINITION. What a well-formed program is: as raw records handed to `loadProgram`
(spec/45_snapshot_and_host.md R217; spec/30_encoding.md R82, R83, R85, R111), and as loaded records (R82).
A typed `Instr` has exactly the fields of its format, registers 0 to 31 and an Int32 immediate by its type;
what remains to check of it is whether it has a reference binary form (R120). -/

namespace Sys2Proof

/-- The record has exactly the optional fields of its format (the table of R83). -/
def RawRecord.fieldsMatchFormat (r : RawRecord) : Bool :=
  match r.op with
  | .add | .sub | .and | .or =>
    r.rd.isSome && r.rs.isSome && r.rt.isSome && r.imm.isNone && r.target.isNone
  | .lw | .sw => r.rd.isNone && r.rs.isSome && r.rt.isSome && r.imm.isSome && r.target.isNone
  | .beq => r.rd.isNone && r.rs.isSome && r.rt.isSome && r.imm.isSome && r.target.isSome
  | .nop => r.rd.isNone && r.rs.isNone && r.rt.isNone && r.imm.isNone && r.target.isNone

/-- Register indices lie in 0 to 31 (R217). -/
def RawRecord.registersInRange (r : RawRecord) : Bool :=
  r.rd.all (· < 32) && r.rs.all (· < 32) && r.rt.all (· < 32)

/-- Immediates are `Int32` (R111, R217). -/
def RawRecord.immediateInRange (r : RawRecord) : Bool :=
  r.imm.all fun v => decide (InInt32 v)

/-- Every BEQ satisfies `target = pc + 4 + 4*imm` (R85, R217). -/
def RawRecord.targetAgrees (r : RawRecord) : Bool :=
  match r.imm, r.target with
  | some imm, some target => target == r.pc + 4 + 4 * imm
  | _, _ => true

/-- The record is well-formed as element `i` of a program (R217). -/
def RawRecord.wellFormedAt (i : Nat) (r : RawRecord) : Bool :=
  r.pc == 4 * (i : Int) && r.fieldsMatchFormat && r.registersInRange && r.immediateInRange && r.targetAgrees

/-- Every record of the list is well-formed at its position, the first position being `i`. -/
def rawWellFormedFrom : Nat → List RawRecord → Bool
  | _, [] => true
  | i, r :: rest => r.wellFormedAt i && rawWellFormedFrom (i + 1) rest

/-- A well-formed program as `loadProgram` receives it (R217). -/
def rawProgramWellFormed (l : List RawRecord) : Bool := rawWellFormedFrom 0 l

/-- The program invariant of R82 from position `i`: record number `i` has address `4*i`. -/
def addressedFrom : Nat → List Record → Bool
  | _, [] => true
  | i, r :: rest => r.pc == 4 * (i : Int) && addressedFrom (i + 1) rest

/-- The program invariant of R82: `program[i].pc = 4*i` for every `i`. -/
def programAddressed (p : List Record) : Bool := addressedFrom 0 p

/-- The instruction has a reference binary form: its immediate, if any, lies in -32768 to 32767 (R120). -/
def Instr.hasBinaryForm : Instr → Bool
  | .add _ _ _ | .sub _ _ _ | .and _ _ _ | .or _ _ _ | .nop => true
  | .lw _ _ imm | .sw _ _ imm | .beq _ _ imm => decide (-32768 ≤ imm.toInt ∧ imm.toInt ≤ 32767)

end Sys2Proof
end

