-- ==== Sys2Proof/Decode.lean ====
section
/-! DEFINITION. The reference binary form: the decoder, the canonical spelling of a decoded record, and after
them the encoder, all from the tables of spec/30_encoding.md R115 to R120. No rule of the machine reads a binary
word (R114); the form is the front end by which a program in words becomes records. -/

namespace Sys2Proof

/-- A row of the table of R117. -/
structure EncodingRow where
  mask : Word
  pattern : Word
  op : Op
  deriving DecidableEq, Repr

/-- The reference encoding table (R117, R118). -/
def encodingTable : List EncodingRow :=
  [ { mask := 0xFC0007FF, pattern := 0x00000020, op := .add },
    { mask := 0xFC0007FF, pattern := 0x00000022, op := .sub },
    { mask := 0xFC0007FF, pattern := 0x00000024, op := .and },
    { mask := 0xFC0007FF, pattern := 0x00000025, op := .or },
    { mask := 0xFC000000, pattern := 0x8C000000, op := .lw },
    { mask := 0xFC000000, pattern := 0xAC000000, op := .sw },
    { mask := 0xFC000000, pattern := 0x10000000, op := .beq },
    { mask := 0xFFFFFFFF, pattern := 0x00000000, op := .nop } ]

/-- The word matches the row: `(w AND mask) = match` (R119). -/
def EncodingRow.covers (row : EncodingRow) (w : Word) : Bool := w &&& row.mask == row.pattern

/-- Why a word is not an instruction (R119, R122). -/
inductive NotAnInstruction where
  /-- Major opcode 0x00 with a nonzero shamt field. -/
  | nonzeroShamt
  /-- Major opcode 0x00 with shamt 0 and a funct that is none of the four (and not the all-zero word). -/
  | unknownFunct
  /-- One of the 60 other major opcodes. -/
  | unknownOpcode
  deriving DecidableEq, Repr

/-- Field `rs`, bits 25:21 (R115, R116). -/
def fieldRs (w : Word) : Reg := (w.extractLsb' 21 5).toFin

/-- Field `rt`, bits 20:16 (R115, R116). -/
def fieldRt (w : Word) : Reg := (w.extractLsb' 16 5).toFin

/-- Field `rd`, bits 15:11 (R115). -/
def fieldRd (w : Word) : Reg := (w.extractLsb' 11 5).toFin

/-- `sext_16(w[15:0])` (R116). -/
def fieldImm (w : Word) : Word := (w.extractLsb' 0 16).signExtend 32

/-- The instruction of an opcode with the fields a word gives it (R83, R115, R116). -/
def fromFields (op : Op) (w : Word) : Instr :=
  match op with
  | .add => .add (fieldRd w) (fieldRs w) (fieldRt w)
  | .sub => .sub (fieldRd w) (fieldRs w) (fieldRt w)
  | .and => .and (fieldRd w) (fieldRs w) (fieldRt w)
  | .or => .or (fieldRd w) (fieldRs w) (fieldRt w)
  | .lw => .lw (fieldRt w) (fieldRs w) (fieldImm w)
  | .sw => .sw (fieldRt w) (fieldRs w) (fieldImm w)
  | .beq => .beq (fieldRs w) (fieldRt w) (fieldImm w)
  | .nop => .nop

/-- The name under which a word that matches no row is rejected (R119). -/
def rejection (w : Word) : NotAnInstruction :=
  if w.extractLsb' 26 6 = 0 then
    if w.extractLsb' 6 5 = 0 then .unknownFunct else .nonzeroShamt
  else .unknownOpcode

/-- Decoding a word: the row of R117 that covers it, or the name of the rejection (R119). -/
def decode (w : Word) : Except NotAnInstruction Instr :=
  match encodingTable.find? (·.covers w) with
  | some row => .ok (fromFields row.op w)
  | none => .error (rejection w)

/-- A natural number in decimal. -/
def spellNat (n : Nat) : String := String.ofList (Nat.toDigits 10 n)

/-- A decimal literal: a minus sign and the magnitude, or the magnitude (R104). -/
def spellInt (v : Int) : String := if v < 0 then "-" ++ spellNat v.natAbs else spellNat v.natAbs

/-- A register token (R103). -/
def spellReg (r : Reg) : String := "R" ++ spellNat r.val

/-- The branch immediate with its sign, as R113 and R121 write it (`+2`, `-1`); zero without a sign
(DESIGN CHOICE, log entry 4). -/
def spellDisplacement (v : Int) : String := if 0 < v then "+" ++ spellInt v else spellInt v

/-- Three register operands of a mnemonic (R113). -/
def spellR (mnemonic : String) (rd rs rt : Reg) : String :=
  mnemonic ++ " " ++ spellReg rd ++ ", " ++ spellReg rs ++ ", " ++ spellReg rt

/-- The canonical assembly spelling with a decimal immediate (R113, R119). -/
def Instr.spelling : Instr → String
  | .add rd rs rt => spellR "ADD" rd rs rt
  | .sub rd rs rt => spellR "SUB" rd rs rt
  | .and rd rs rt => spellR "AND" rd rs rt
  | .or rd rs rt => spellR "OR" rd rs rt
  | .lw rt rs imm => "LW " ++ spellReg rt ++ ", " ++ spellInt imm.toInt ++ "(" ++ spellReg rs ++ ")"
  | .sw rt rs imm => "SW " ++ spellReg rt ++ ", " ++ spellInt imm.toInt ++ "(" ++ spellReg rs ++ ")"
  | .beq rs rt imm =>
    "BEQ " ++ spellReg rs ++ ", " ++ spellReg rt ++ ", " ++ spellDisplacement imm.toInt
  | .nop => "NOP"

/-- The record of an instruction at an address, its text the canonical spelling (R119). -/
def canonicalRecord (i : Instr) (p : Int) : Record := { instr := i, text := i.spelling, pc := p }

/-- Decoding a word at instruction address `p` to a record (R119). -/
def decodeAt (p : Int) (w : Word) : Except NotAnInstruction Record :=
  match decode w with
  | .ok i => .ok (canonicalRecord i p)
  | .error e => .error e

/-- The records of a program in words, the first word being number `k`; a word that is not an instruction
refuses the program, with its position and the reason (R114, R119). -/
def decodeProgramFrom (k : Nat) : List Word → Except (Nat × NotAnInstruction) (List Record)
  | [] => .ok []
  | w :: rest =>
    match decodeAt (4 * (k : Int)) w, decodeProgramFrom (k + 1) rest with
    | .error e, _ => .error (k, e)
    | .ok _, .error e => .error e
    | .ok r, .ok rs => .ok (r :: rs)

/-- The records of a program given in binary (R114, R119). -/
def decodeProgram (l : List Word) : Except (Nat × NotAnInstruction) (List Record) := decodeProgramFrom 0 l

/-- The instruction read from an instruction whose low `nbits` bits are those of `w`, the bits above being 0.
An instruction is one 32-bit word (R91), and no byte order exists (spec/20_memory.md R66). -/
def decodeTableWord (nbits w : Nat) : Option Instr :=
  match decode (BitVec.ofNat 32 (w % 2 ^ nbits)) with
  | .ok i => some i
  | .error _ => none

/-- A register number as a 5-bit field. -/
def regBits (r : Reg) : BitVec 5 := BitVec.ofFin r

/-- The reference R-format: opcode 000000, rs, rt, rd, shamt 00000, funct (R115). -/
def encodeR (funct : BitVec 6) (rd rs rt : Reg) : Word :=
  0#6 ++ regBits rs ++ regBits rt ++ regBits rd ++ 0#5 ++ funct

/-- The reference I-format: opcode, rs, rt, imm16 (R116). -/
def encodeI (opcode : BitVec 6) (rs rt : Reg) (imm : Word) : Word :=
  opcode ++ regBits rs ++ regBits rt ++ imm.setWidth 16

/-- The fields of an instruction laid out by its format and numbers (R115 to R118), whatever its immediate. -/
def Instr.bits : Instr → Word
  | .add rd rs rt => encodeR 0x20 rd rs rt
  | .sub rd rs rt => encodeR 0x22 rd rs rt
  | .and rd rs rt => encodeR 0x24 rd rs rt
  | .or rd rs rt => encodeR 0x25 rd rs rt
  | .lw rt rs imm => encodeI 0x23 rs rt imm
  | .sw rt rs imm => encodeI 0x2B rs rt imm
  | .beq rs rt imm => encodeI 0x04 rs rt imm
  | .nop => 0

/-- Encoding, the inverse of decoding; an instruction whose immediate does not fit 16 signed bits has no
reference binary form (R120). -/
def encode (i : Instr) : Option Word := if i.hasBinaryForm then some i.bits else none

end Sys2Proof
end

