-- ==== Sys2Proof/Machine/State.lean ====
section
/-! DEFINITION. The state of the engine as the spec lists it (spec/10_state.md R21 to R44), its reset value
(R45), and the two closed types of stops. State is plain data. -/

namespace Sys2Proof.Machine

/-- The hardware faults. There is none: "there are no runtime exceptions in the engine"
(spec/60_exceptions.md R251, spec/93_implementation_defined.md: `fault` is not used), so nothing raises one and
the type has no constructor. Safe: it makes no behaviour of the hardware unprovable. -/
inductive Fault where
  deriving DecidableEq, Repr

/-- The refusals: model-level rejections, never hardware events (spec/00_scope.md R15). -/
inductive Refusal where
  /-- Raised by an arm of `exec` whose instruction has no meaning in the model; no arm raises it. Safe. -/
  | notModelled (mnemonic : String)
  /-- Raised by `loadProgram` for a list that is not a well-formed program (spec/45_snapshot_and_host.md R217).
  Safe: the operation changes nothing. -/
  | illFormedProgram
  /-- Raised by `restoreState` for a state that is not well-formed for the loaded program (R223, R233).
  Safe: the operation changes nothing. -/
  | illFormedState
  /-- Raised by a step whose ID/EX latch lacks the immediate or the branch target that its own control signals
  use; no well-formed state holds such a latch (spec/10_state.md R44), so no run reaches it. Safe: the machine
  stops where the rules give no value. -/
  | incompleteLatch
  deriving DecidableEq, Repr

/-- The ALU operations (spec/30_encoding.md R88, R90). -/
inductive AluOp where
  | add | sub | and | or | none
  deriving DecidableEq, Repr

/-- The control-signal record (spec/30_encoding.md R88). -/
structure Ctrl where
  regWrite : Bool
  memRead : Bool
  memWrite : Bool
  memToReg : Bool
  isBranch : Bool
  aluOp : AluOp
  useImmediate : Bool
  isNop : Bool
  deriving DecidableEq, Repr

/-- The IF/ID latch when it is not a bubble (R36). -/
structure IfId where
  instr : Record
  addr : Int
  deriving DecidableEq, Repr

/-- The ID/EX latch when it is not a bubble (R37). -/
structure IdEx where
  instr : Record
  addr : Int
  rsVal : Word
  rtVal : Word
  dest : Option Reg
  imm : Option Word
  target : Option Int
  ctrl : Ctrl
  deriving DecidableEq, Repr

/-- The EX/MEM latch when it is not a bubble (R38). -/
structure ExMem where
  instr : Record
  addr : Int
  aluResult : Word
  storeData : Word
  dest : Option Reg
  ctrl : Ctrl
  branchTaken : Bool
  branchTarget : Option Int
  deriving DecidableEq, Repr

/-- The MEM/WB latch when it is not a bubble (R39). -/
structure MemWb where
  instr : Record
  addr : Int
  writeData : Word
  dest : Option Reg
  ctrl : Ctrl
  deriving DecidableEq, Repr

/-- The six statistics counters (R32). -/
structure Stats where
  cycleCount : Nat
  instructionsCompleted : Nat
  stallCount : Nat
  forwardCount : Nat
  branchCount : Nat
  branchMispredictions : Nat
  deriving DecidableEq, Repr

/-- An operand slot of the forwarding unit (spec/30_encoding.md R86). -/
inductive Slot where
  | a | b
  deriving DecidableEq, Repr

/-- The latch a value is forwarded from (spec/40_pipeline.md R137). -/
inductive ForwardSource where
  | exmem | memwb
  deriving DecidableEq, Repr

/-- A forward record of the step's forwarding list (R42; spec/45_snapshot_and_host.md R229). R42 gives `reg` the range
1 to 31; the field here is any register, and every step writes only 1 to 31 into it (DESIGN CHOICE, log entry 16). -/
structure Forward where
  slot : Slot
  reg : Reg
  source : ForwardSource
  value : Word
  deriving DecidableEq, Repr

/-- A hazard event of one step with the fields of spec/45_snapshot_and_host.md R228; the `reason` string and
the optional `reg` are views (Machine/Snapshot.lean). -/
inductive Event where
  /-- One forwarded slot of the instruction in EX. -/
  | forward (reg : Reg) (source : ForwardSource) (target : Slot) (instr : Record)
  /-- A load-use stall: the load's destination, the LW in ID/EX, the instruction held in IF/ID. -/
  | stall (reg : Reg) (source target : Record)
  /-- A taken branch: the BEQ in EX, the target address, the squashed instructions, the one leaving ID first. -/
  | flush (source : Record) (target : Int) (squashed : List Record)
  deriving DecidableEq, Repr

/-- The record of the last completed step (R42). -/
structure LastStep where
  stageId : Option Record
  stageEx : Option Record
  stageMem : Option Record
  stageWb : Option Record
  stalled : Bool
  flushed : Bool
  forwards : List Forward
  events : List Event
  deriving DecidableEq, Repr

/-- The register file: 32 words, no aliases, no banks (R22). -/
abbrev Regs := Vector Word 32

/-- Data memory: the words that are not 0, by word index, strictly rising; an index that is not listed reads
the reset value 0 (R35, R45). The model stores words, because no byte order and no sub-word unit exists
(spec/20_memory.md R62, R66), log entry 5. -/
abbrev Memory := List (Nat × Word)

/-- The engine (R21). A latch or a stage entry that is `none` is a bubble. -/
structure State where
  /-- The OPEN parameters of spec/00_scope.md R7, fixed for the life of the instance (R20), log entry 1. -/
  params : Params
  /-- Instruction memory (R34). -/
  program : List Record
  /-- Address of the next instruction IF will fetch (R26), unbounded (R28). -/
  pc : Int
  /-- The general registers (R22). -/
  x : Regs
  /-- Data memory (R35). -/
  mem : Memory
  /-- R31. -/
  halted : Bool
  /-- R32. -/
  stats : Stats
  /-- IF/ID (R36). -/
  ifid : Option IfId
  /-- ID/EX (R37). -/
  idex : Option IdEx
  /-- EX/MEM (R38). -/
  exmem : Option ExMem
  /-- MEM/WB (R39). -/
  memwb : Option MemWb
  /-- What IF presented during the last completed step (R41). -/
  fetchInstr : Option Record
  /-- R42. -/
  last : LastStep
  deriving DecidableEq, Repr

/-- `EngineState`, the exported value: the state without the program (R21; spec/45_snapshot_and_host.md R224)
and without the parameters, which no operation changes (spec/00_scope.md R20). -/
structure EngineState where
  pc : Int
  x : Regs
  mem : Memory
  halted : Bool
  stats : Stats
  ifid : Option IfId
  idex : Option IdEx
  exmem : Option ExMem
  memwb : Option MemWb
  fetchInstr : Option Record
  last : LastStep
  deriving DecidableEq, Repr

/-- What the sequential description of an instruction ("architectural effect", head of spec/41_alu.md) reads
and writes: the pc of the instruction, the registers, data memory and the two branch counters (R201). -/
structure Arch where
  pc : Int
  x : Regs
  mem : Memory
  branchCount : Nat
  branchMispredictions : Nat
  deriving DecidableEq, Repr

/-- All six counters 0 (R45). -/
def Stats.reset : Stats :=
  { cycleCount := 0, instructionsCompleted := 0, stallCount := 0, forwardCount := 0, branchCount := 0,
    branchMispredictions := 0 }

/-- The empty last-cycle record (R45). -/
def LastStep.reset : LastStep :=
  { stageId := none, stageEx := none, stageMem := none, stageWb := none, stalled := false, flushed := false,
    forwards := [], events := [] }

/-- Every component at its reset value, around given parameters and a given program (R45). -/
def State.fresh (params : Params) (program : List Record) : State :=
  { params := params
    program := program
    pc := 0
    x := Vector.replicate 32 0
    mem := []
    halted := false
    stats := Stats.reset
    ifid := none
    idex := none
    exmem := none
    memwb := none
    fetchInstr := none
    last := LastStep.reset }

/-- A newly constructed engine: the reset state with an empty program (R47). -/
def State.reset : State := State.fresh Config.params []

end Sys2Proof.Machine
end

