-- ==== Sys2Proof/Machine/Ops.lean ====
section
/-! DEFINITION. The named operations over registers, data memory and instruction memory: wrap, register read
and write, word index, memory read and write, fetch. The hardware takes no exception and returns from none
(spec/60_exceptions.md R251, R255, R256), so there is no such operation. -/

namespace Sys2Proof.Machine

/-- `wrap32` (spec/00_scope.md R11): the word congruent to the integer modulo 2^32. -/
def wrap32 (v : Int) : Word := BitVec.ofInt 32 v

/-- Register read: what is stored, register 0 included (spec/10_state.md R24). -/
def readReg (x : Regs) (i : Reg) : Word := x[i]

/-- Register write: a write to register 0 is discarded (R23). -/
def writeReg (x : Regs) (i : Reg) (v : Word) : Regs := if i = 0 then x else x.set i v

/-- A write to an optional destination. -/
def writeDest (x : Regs) (dest : Option Reg) (v : Word) : Regs :=
  match dest with
  | some d => writeReg x d v
  | none => x

/-- The word with index `k`; an index that is not listed holds 0 (R35, R45). -/
def loadWord : Memory → Nat → Word
  | [], _ => 0
  | (i, v) :: rest, k => if k = i then v else loadWord rest k

/-- Lists a word at the head unless it is the value an unlisted index reads as. -/
def consWord (k : Nat) (v : Word) (m : Memory) : Memory := if v = 0 then m else (k, v) :: m

/-- Replaces the word with index `k`, keeping the list rising and free of zero words. -/
def storeWord : Memory → Nat → Word → Memory
  | [], k, v => consWord k v []
  | (i, w) :: rest, k, v =>
    if k < i then consWord k v ((i, w) :: rest)
    else if k = i then consWord k v rest
    else (i, w) :: storeWord rest k v

/-- The canonical form of data memory under MEM_WORDS words: indexes strictly rising and in range, no word
equal to what an unlisted index reads as. -/
abbrev Memory.wf (words : Nat) (m : Memory) : Prop :=
  m.Pairwise (fun a b => a.1 < b.1) ∧ ∀ c ∈ m, c.1 < words ∧ c.2 ≠ 0

/-- `k` itself when it is the index of a word, 0 <= k < MEM_WORDS. -/
def boundedIndex (words : Nat) (k : Int) : Option Nat :=
  if 0 ≤ k ∧ k < words then some k.toNat else none

/-- Word index of a data address (spec/20_memory.md R63): `none` is OutOfRange. `/` is floor division. -/
def wordIndex (p : Params) (a : Word) : Option Nat :=
  if a.toInt % 4 = 0 then boundedIndex p.memWords (a.toInt / 4)
  else
    match p.misalign with
    | .truncate => boundedIndex p.memWords (a.toInt / 4)
    | .outOfRange => none

/-- `MemRead(a, 4)`: 0 when out of range (spec/20_memory.md R64). -/
def memRead (p : Params) (m : Memory) (a : Word) : Word :=
  match wordIndex p a with
  | some k => loadWord m k
  | none => 0

/-- `MemWrite(a, 4, v)`: dropped when out of range (spec/20_memory.md R65). -/
def memWrite (p : Params) (m : Memory) (a v : Word) : Memory :=
  match wordIndex p a with
  | some k => storeWord m k v
  | none => m

/-- `Fetch(p)`: the record at an instruction address, or a bubble outside the program (spec/20_memory.md R68). -/
def fetch (program : List Record) (p : Int) : Option Record :=
  if 0 ≤ p then program[(p / 4).toNat]? else none

end Sys2Proof.Machine
end

