-- ==== Sys2Proof/Machine/Operands.lean ====
section
/-! DEFINITION. What decode derives from an instruction: source slots, destination, immediate, branch target,
control signals (spec/30_encoding.md R83 to R89), and the forwarding unit that gives a slot its operand in EX
(spec/40_pipeline.md R137 to R140). -/

namespace Sys2Proof.Machine

/-- The register of slot A (spec/30_encoding.md R86). -/
def slotA : Instr → Option Reg
  | .add _ rs _ | .sub _ rs _ | .and _ rs _ | .or _ rs _ => some rs
  | .lw _ rs _ | .sw _ rs _ => some rs
  | .beq rs _ _ => some rs
  | .nop => none

/-- The register of slot B; LW's `rt` is its destination and no source (R86, D13). -/
def slotB : Instr → Option Reg
  | .add _ _ rt | .sub _ _ rt | .and _ _ rt | .or _ _ rt => some rt
  | .lw _ _ _ => none
  | .sw rt _ _ => some rt
  | .beq _ rt _ => some rt
  | .nop => none

/-- The register is one of the instruction's source registers (R86). -/
def readsReg (i : Instr) (r : Reg) : Bool := slotA i == some r || slotB i == some r

/-- The destination register (R87). -/
def destOf : Instr → Option Reg
  | .add rd _ _ | .sub rd _ _ | .and rd _ _ | .or rd _ _ => some rd
  | .lw rt _ _ => some rt
  | .sw _ _ _ | .beq _ _ _ | .nop => none

/-- The immediate field, absent where the format has none (R83, R84). -/
def immOf : Instr → Option Word
  | .lw _ _ imm | .sw _ _ imm | .beq _ _ imm => some imm
  | .add _ _ _ | .sub _ _ _ | .and _ _ _ | .or _ _ _ | .nop => none

/-- The absolute branch target `pc + 4 + 4*imm` of a BEQ record (R84, R85). -/
def branchTarget (pc : Int) (imm : Word) : Int := pc + 4 + 4 * imm.toInt

/-- The `target` field of a record, absent but for BEQ (R83, R85). -/
def targetOf (r : Record) : Option Int :=
  match r.instr with
  | .beq _ _ imm => some (branchTarget r.pc imm)
  | .add _ _ _ | .sub _ _ _ | .and _ _ _ | .or _ _ _ | .lw _ _ _ | .sw _ _ _ | .nop => none

/-- The control signals of a register-register instruction with its ALU operation (R89). -/
def ctrlAlu (op : AluOp) : Ctrl :=
  { regWrite := true, memRead := false, memWrite := false, memToReg := false, isBranch := false, aluOp := op,
    useImmediate := false, isNop := false }

/-- The LW row of R89. -/
def ctrlLw : Ctrl :=
  { regWrite := true, memRead := true, memWrite := false, memToReg := true, isBranch := false, aluOp := .add,
    useImmediate := true, isNop := false }

/-- The SW row of R89. -/
def ctrlSw : Ctrl :=
  { regWrite := false, memRead := false, memWrite := true, memToReg := false, isBranch := false, aluOp := .add,
    useImmediate := true, isNop := false }

/-- The BEQ row of R89. -/
def ctrlBeq : Ctrl :=
  { regWrite := false, memRead := false, memWrite := false, memToReg := false, isBranch := true, aluOp := .sub,
    useImmediate := false, isNop := false }

/-- The NOP row of R89. -/
def ctrlNop : Ctrl :=
  { regWrite := false, memRead := false, memWrite := false, memToReg := false, isBranch := false, aluOp := .none,
    useImmediate := false, isNop := true }

/-- The control-signal table (R89). -/
def ctrlOf : Instr → Ctrl
  | .add _ _ _ => ctrlAlu .add
  | .sub _ _ _ => ctrlAlu .sub
  | .and _ _ _ => ctrlAlu .and
  | .or _ _ _ => ctrlAlu .or
  | .lw _ _ _ => ctrlLw
  | .sw _ _ _ => ctrlSw
  | .beq _ _ _ => ctrlBeq
  | .nop => ctrlNop

/-- The value EX/MEM offers for a register: a non-bubble `regWrite` instruction with that destination whose
result is not an unready load (spec/40_pipeline.md R137). -/
def fromExMem (l : Option ExMem) (r : Reg) : Option Word :=
  match l with
  | some e => if e.ctrl.regWrite && e.dest == some r && !e.ctrl.memToReg then some e.aluResult else none
  | none => none

/-- The value MEM/WB offers for a register: a non-bubble `regWrite` instruction with that destination (R137). -/
def fromMemWb (l : Option MemWb) (r : Reg) : Option Word :=
  match l with
  | some w => if w.ctrl.regWrite && w.dest == some r then some w.writeData else none
  | none => none

/-- The forwarding unit for one register: never register 0, EX/MEM before MEM/WB (R137, R138). -/
def forwardOf (exmem : Option ExMem) (memwb : Option MemWb) (r : Reg) : Option (ForwardSource × Word) :=
  if r = 0 then none
  else
    match fromExMem exmem r with
    | some v => some (.exmem, v)
    | none =>
      match fromMemWb memwb r with
      | some v => some (.memwb, v)
      | none => none

/-- The operand of a slot: 0 for a slot the instruction does not have, else the forwarded value, else the
un-forwarded one (R137, R140, D16). -/
def operandOf (exmem : Option ExMem) (memwb : Option MemWb) (slot : Option Reg) (base : Word) : Word :=
  match slot with
  | none => 0
  | some r =>
    match forwardOf exmem memwb r with
    | some (_, v) => v
    | none => base

/-- The forward records one slot adds to the step's list: one if the slot was forwarded (R139). -/
def forwardsOf (exmem : Option ExMem) (memwb : Option MemWb) (s : Slot) (slot : Option Reg) : List Forward :=
  match slot with
  | none => []
  | some r =>
    match forwardOf exmem memwb r with
    | some (src, v) => [{ slot := s, reg := r, source := src, value := v }]
    | none => []

end Sys2Proof.Machine
end

