-- ==== Sys2Proof/Machine/Flags.lean ====
section
/-! DEFINITION. The machine has no condition codes, status flags or predicate registers (spec/10_state.md R29).
The one condition is the equality test of BEQ, computed in EX; with it stand the ALU, which sets no flag, and the
counters, the core's only status. -/

namespace Sys2Proof.Machine

/-- The ALU (spec/30_encoding.md R90): exact result, then the wrap of R11; AND and OR on the bit patterns. -/
def alu (op : AluOp) (srcA srcB : Word) : Word :=
  match op with
  | .add => wrap32 (srcA.toInt + srcB.toInt)
  | .sub => wrap32 (srcA.toInt - srcB.toInt)
  | .and => srcA &&& srcB
  | .or => srcA ||| srcB
  | .none => 0

/-- The effective byte address of LW and SW: the ALU's ADD of base and offset, wrapped (spec/42_load_store.md
R193). -/
def effectiveAddress (base imm : Word) : Word := wrap32 (base.toInt + imm.toInt)

/-- The branch condition: equality of the forwarded operand values (spec/43_branch.md R201). -/
def branchCondition (opA opB : Word) : Bool := opA == opB

/-- One when the event happens in the step, none otherwise: what a counter of R32 is increased by. -/
def tally (b : Bool) : Nat := if b then 1 else 0

end Sys2Proof.Machine
end

