-- ==== Sys2Proof/Machine/Stages.lean ====
section
/-! DEFINITION. The stages of one clock edge (spec/40_pipeline.md R134 to R155). Every function here reads the
state at the start of the step (`old` in the rules); where a stage sees an earlier stage's write of the same
step (R133) it says so. `v` is what `Fetch(pc)` gives. -/

namespace Sys2Proof.Machine

/-! Write-back -/

/-- The register file after WB (R134). -/
def wbRegs (s : State) : Regs :=
  match s.memwb with
  | some w => if w.ctrl.regWrite then writeDest s.x w.dest w.writeData else s.x
  | none => s.x

/-! Memory access -/

/-- Data memory after MEM (R135); the value stored is `storeData` (C7). -/
def memAfter (s : State) : Memory :=
  match s.exmem with
  | some e => if e.ctrl.memWrite then memWrite s.params s.mem e.aluResult e.storeData else s.mem
  | none => s.mem

/-- The word MEM loads: 0 when the instruction reads no memory (R135). -/
def loadedWord (s : State) (e : ExMem) : Word :=
  if e.ctrl.memRead then memRead s.params s.mem e.aluResult else 0

/-- The next MEM/WB latch (R135). -/
def newMemWb (s : State) : Option MemWb :=
  match s.exmem with
  | some e =>
    some { instr := e.instr, addr := e.addr
           writeData := if e.ctrl.memToReg then loadedWord s e else e.aluResult
           dest := e.dest, ctrl := e.ctrl }
  | none => none

/-! Execute -/

/-- Operand A of the instruction in EX (R140). -/
def opA (s : State) (d : IdEx) : Word := operandOf s.exmem s.memwb (slotA d.instr.instr) d.rsVal

/-- Operand B of the instruction in EX (R140). -/
def opB (s : State) (d : IdEx) : Word := operandOf s.exmem s.memwb (slotB d.instr.instr) d.rtVal

/-- The ALU's second input: the immediate under `useImmediate`, else operand B (R140). A latch that lacks the
immediate its control signals use is refused before this is read (`latchComplete`). -/
def srcB (s : State) (d : IdEx) : Word :=
  match d.ctrl.useImmediate, d.imm with
  | true, some v => v
  | _, _ => opB s d

/-- The ALU result of the instruction in EX (R141). -/
def aluOut (s : State) (d : IdEx) : Word := alu d.ctrl.aluOp (opA s d) (srcB s d)

/-- The branch in EX is taken (R142). -/
def branchTakenIn (s : State) (d : IdEx) : Bool := d.ctrl.isBranch && branchCondition (opA s d) (opB s d)

/-- The next EX/MEM latch (R136, R143). -/
def newExMem (s : State) : Option ExMem :=
  match s.idex with
  | some d =>
    some { instr := d.instr, addr := d.addr, aluResult := aluOut s d, storeData := opB s d, dest := d.dest
           ctrl := d.ctrl, branchTaken := branchTakenIn s d
           branchTarget := if d.ctrl.isBranch then d.target else none }
  | none => none

/-- EX processes a branch this step (R142). -/
def branchResolves (s : State) : Bool :=
  match s.idex with
  | some d => d.ctrl.isBranch
  | none => false

/-- EX resolves a branch taken this step (R142). -/
def branchTaken (s : State) : Bool :=
  match s.idex with
  | some d => branchTakenIn s d
  | none => false

/-- Where a branch taken this step goes, with the branch itself (R142, R150). -/
def redirect (s : State) : Option (Record × Int) :=
  match s.idex with
  | some d => if branchTakenIn s d then d.target.map fun t => (d.instr, t) else none
  | none => none

/-- The forwarding list of the step: slot A, then slot B (R137, R139). -/
def stepForwards (s : State) : List Forward :=
  match s.idex with
  | some d =>
    forwardsOf s.exmem s.memwb .a (slotA d.instr.instr) ++ forwardsOf s.exmem s.memwb .b (slotB d.instr.instr)
  | none => []

/-! Decode -/

/-- The load-use check (R144): the load's destination register, the LW in ID/EX and the instruction held. -/
def loadUse (s : State) : Option (Reg × Record × Record) :=
  match s.ifid, s.idex with
  | some f, some d =>
    match d.dest with
    | some r =>
      if d.ctrl.memRead && r != 0 && readsReg f.instr.instr r then some (r, d.instr, f.instr) else none
    | none => none
  | _, _ => none

/-- Decode stalls this step (R145). -/
def stalls (s : State) : Bool := (loadUse s).isSome

/-- The un-forwarded value of a slot: 0 for a slot the instruction does not have (R146). -/
def slotValue (x : Regs) (slot : Option Reg) : Word :=
  match slot with
  | some r => readReg x r
  | none => 0

/-- What ID makes of an instruction, over the register file it reads (R146). -/
def decoded (x : Regs) (f : IfId) : IdEx :=
  { instr := f.instr, addr := f.addr
    rsVal := slotValue x (slotA f.instr.instr), rtVal := slotValue x (slotB f.instr.instr)
    dest := destOf f.instr.instr, imm := immOf f.instr.instr, target := targetOf f.instr
    ctrl := ctrlOf f.instr.instr }

/-- The next ID/EX latch before the branch override (R145 to R147). The register reads see this step's WB
write (R133, D17). -/
def builtIdEx (s : State) : Option IdEx := if stalls s then none else s.ifid.map (decoded (wbRegs s))

/-! Fetch -/

/-- The next IF/ID latch before the branch override: held under a stall, else the fetched record (R148, R149). -/
def builtIfId (v : Option Record) (s : State) : Option IfId :=
  if stalls s then s.ifid else v.map fun r => { instr := r, addr := s.pc }

/-- What IF presented this step, kept even if the branch override squashes it (R41, R148, R149). -/
def fetched (v : Option Record) (s : State) : Option Record :=
  if stalls s then s.ifid.map (·.instr) else v

/-- The candidate next pc (R148, R149). -/
def pcCandidate (s : State) : Int := if stalls s then s.pc else s.pc + 4

/-! Branch override, events, halt, record of the step -/

/-- The squashed instructions, the one leaving ID first, bubbles omitted (R150). -/
def squashed (v : Option Record) (s : State) : List Record :=
  ((builtIdEx s).map (·.instr)).toList ++ ((builtIfId v s).map (·.instr)).toList

/-- The next ID/EX latch (R150). -/
def newIdEx (s : State) : Option IdEx := if branchTaken s then none else builtIdEx s

/-- The next IF/ID latch (R150). -/
def newIfId (v : Option Record) (s : State) : Option IfId := if branchTaken s then none else builtIfId v s

/-- The next pc (R150). -/
def newPc (s : State) : Int :=
  match redirect s with
  | some (_, t) => t
  | none => pcCandidate s

/-- The FORWARD events of the step (R139). -/
def forwardEvents (s : State) : List Event :=
  match s.idex with
  | some d => (stepForwards s).map fun f => .forward f.reg f.source f.slot d.instr
  | none => []

/-- The STALL event of the step (R145). -/
def stallEvents (s : State) : List Event :=
  match loadUse s with
  | some (r, load, held) => [.stall r load held]
  | none => []

/-- The FLUSH event of the step (R150). -/
def flushEvents (v : Option Record) (s : State) : List Event :=
  match redirect s with
  | some (b, t) => [.flush b t (squashed v s)]
  | none => []

/-- The counters after the step (R134, R139, R142, R145, R152). -/
def newStats (s : State) : Stats :=
  { cycleCount := s.stats.cycleCount + 1
    instructionsCompleted := s.stats.instructionsCompleted + tally s.memwb.isSome
    stallCount := s.stats.stallCount + tally (stalls s)
    forwardCount := s.stats.forwardCount + (stepForwards s).length
    branchCount := s.stats.branchCount + tally (branchResolves s)
    branchMispredictions := s.stats.branchMispredictions + tally (branchTaken s) }

/-- The last-cycle record of the step (R155). -/
def newLast (v : Option Record) (s : State) : LastStep :=
  { stageId := s.ifid.map (·.instr)
    stageEx := s.idex.map (·.instr)
    stageMem := s.exmem.map (·.instr)
    stageWb := s.memwb.map (·.instr)
    stalled := stalls s
    flushed := branchTaken s
    forwards := stepForwards s
    events := forwardEvents s ++ stallEvents s ++ flushEvents v s }

/-- The halt test on committed latches, the new pc and the program length (R154). -/
def haltTest (ifid : Option IfId) (idex : Option IdEx) (exmem : Option ExMem) (memwb : Option MemWb) (pc : Int)
    (program : List Record) : Bool :=
  ifid.isNone && idex.isNone && exmem.isNone && memwb.isNone && decide (4 * (program.length : Int) ≤ pc)

/-- The state after one clock edge of a machine that is not halted, all four latches committed together
(R132, R153), with `v` fetched at the pc. -/
def clocked (v : Option Record) (s : State) : State :=
  { params := s.params
    program := s.program
    pc := newPc s
    x := wbRegs s
    mem := memAfter s
    halted := haltTest (newIfId v s) (newIdEx s) (newExMem s) (newMemWb s) (newPc s) s.program
    stats := newStats s
    ifid := newIfId v s
    idex := newIdEx s
    exmem := newExMem s
    memwb := newMemWb s
    fetchInstr := fetched v s
    last := newLast v s }

/-- The ID/EX latch holds the immediate and the target its own control signals use. ID always builds it so
(R146, R89), and no well-formed state holds another (spec/10_state.md R44). -/
def latchComplete (d : IdEx) : Bool :=
  (!d.ctrl.useImmediate || d.imm.isSome) && (!d.ctrl.isBranch || d.target.isSome)

/-- One clock edge with `v` fetched at the pc. On a halted engine it changes nothing (R131, D29); on a latch the
rules give no value for, it refuses by name (spec/00_scope.md R15), log entry 6. -/
def edge (v : Option Record) (s : State) : Host.Outcome State Fault Refusal :=
  if s.halted then .next s
  else if s.idex.all latchComplete then .next (clocked v s)
  else .refused .incompleteLatch

end Sys2Proof.Machine
end

