-- ==== Sys2Proof/Machine/Fetch.lean ====
section
/-! DEFINITION. The clock edge as an instruction's own step (`clock`), and placing an instruction where the
machine fetches next. -/

namespace Sys2Proof.Machine

/-- The record that IF presents when the instruction at the pc is `i`: the loaded program's record if it is the
record of `i`, else `i`'s own record at the pc with the canonical text (spec/30_encoding.md R119). -/
def presented (i : Instr) (s : State) : Record :=
  match fetch s.program s.pc with
  | some r => if r.instr = i then r else canonicalRecord i s.pc
  | none => canonicalRecord i s.pc

/-- THE STEP OF AN INSTRUCTION. One clock edge of the whole pipeline with `i` standing at the pc, so that `i`
enters the pipeline through IF (spec/40_pipeline.md R149), unless the edge holds fetch for a load-use stall
(R148) or squashes the fetched slot (R150). The effect of `i` then unfolds over the edges that follow, as its
rule's "pipeline path" says: ID on the second edge, EX on the third, MEM on the fourth, WB on the fifth. -/
def clock (i : Instr) (s : State) : Host.Outcome State Fault Refusal := edge (some (presented i s)) s

/-- The slot of instruction memory the pc names, slot 0 for a negative pc. -/
def pcSlot (s : State) : Nat := (s.pc / 4).toNat

/-- NOP records for the slots from the end of a program up to slot `k`. -/
def paddingTo (k : Nat) (program : List Record) : List Record :=
  (List.range (k - program.length)).map fun j => canonicalRecord .nop (4 * ((program.length + j : Nat) : Int))

/-- The program with slot `k` holding `i`, padded with NOPs where it was shorter. -/
def programWith (program : List Record) (k : Nat) (i : Instr) : List Record :=
  program.take k ++ paddingTo k program ++ [canonicalRecord i (4 * (k : Int))] ++ program.drop (k + 1)

/-- The state with `i` in the slot the next step fetches from. The pc moves only if no slot stands at it (a
negative or misaligned pc), `halted` is cleared, and ID/EX is emptied only where it would stall or squash the
fetch or refuse the step: log entry 7. -/
def placeInstr (i : Instr) (s : State) : State :=
  { s with
    program := programWith s.program (pcSlot s) i
    pc := 4 * (pcSlot s : Int)
    halted := false
    idex := if stalls s || branchTaken s || !s.idex.all latchComplete then none else s.idex }

end Sys2Proof.Machine
end

