-- ==== Sys2Proof/Machine/Alu.lean ====
section
/-! DEFINITION. ADD, SUB, AND, OR (spec/41_alu.md R181 to R185): the architectural effect of each, and its step.
Their control rows, slots and destination are in Machine/Operands.lean, their results in `alu`. -/

namespace Sys2Proof.Machine

/-- ADD, architectural effect (R181): the sum, wrapped. -/
def archAdd (rd rs rt : Reg) (a : Arch) : Arch :=
  { a with x := writeReg a.x rd (wrap32 ((readReg a.x rs).toInt + (readReg a.x rt).toInt)), pc := a.pc + 4 }

/-- SUB, architectural effect (R182): the difference, wrapped. -/
def archSub (rd rs rt : Reg) (a : Arch) : Arch :=
  { a with x := writeReg a.x rd (wrap32 ((readReg a.x rs).toInt - (readReg a.x rt).toInt)), pc := a.pc + 4 }

/-- AND, architectural effect (R183). -/
def archAnd (rd rs rt : Reg) (a : Arch) : Arch :=
  { a with x := writeReg a.x rd (readReg a.x rs &&& readReg a.x rt), pc := a.pc + 4 }

/-- OR, architectural effect (R184). -/
def archOr (rd rs rt : Reg) (a : Arch) : Arch :=
  { a with x := writeReg a.x rd (readReg a.x rs ||| readReg a.x rt), pc := a.pc + 4 }

/-- ADD's step: the clock edge with ADD at the pc (R181, pipeline path). -/
def execAdd (rd rs rt : Reg) (s : State) : Host.Outcome State Fault Refusal := clock (.add rd rs rt) s

/-- SUB's step (R182). -/
def execSub (rd rs rt : Reg) (s : State) : Host.Outcome State Fault Refusal := clock (.sub rd rs rt) s

/-- AND's step (R183). -/
def execAnd (rd rs rt : Reg) (s : State) : Host.Outcome State Fault Refusal := clock (.and rd rs rt) s

/-- OR's step (R184). -/
def execOr (rd rs rt : Reg) (s : State) : Host.Outcome State Fault Refusal := clock (.or rd rs rt) s

end Sys2Proof.Machine
end

