-- ==== Sys2Proof/Machine/Branch.lean ====
section
/-! DEFINITION. BEQ, the only control transfer (spec/43_branch.md R201 to R203): its architectural effect and its
step. -/

namespace Sys2Proof.Machine

/-- BEQ, architectural effect (R201): the target when equal, else the next instruction; both counters. -/
def archBeq (rs rt : Reg) (imm : Word) (a : Arch) : Arch :=
  let taken := branchCondition (readReg a.x rs) (readReg a.x rt)
  { a with
    pc := if taken then branchTarget a.pc imm else a.pc + 4
    branchCount := a.branchCount + 1
    branchMispredictions := a.branchMispredictions + tally taken }

/-- BEQ's step: the clock edge with BEQ at the pc (R201, pipeline path). -/
def execBeq (rs rt : Reg) (imm : Word) (s : State) : Host.Outcome State Fault Refusal := clock (.beq rs rt imm) s

end Sys2Proof.Machine
end

