-- ==== Sys2Proof/Machine/LoadStore.lean ====
section
/-! DEFINITION. LW and SW (spec/42_load_store.md R191 to R193): the architectural effect of each, and its step. -/

namespace Sys2Proof.Machine

/-- LW, architectural effect (R191): the word at the effective address, 0 when out of range. -/
def archLw (p : Params) (rt rs : Reg) (imm : Word) (a : Arch) : Arch :=
  { a with x := writeReg a.x rt (memRead p a.mem (effectiveAddress (readReg a.x rs) imm)), pc := a.pc + 4 }

/-- SW, architectural effect (R192): dropped when out of range. -/
def archSw (p : Params) (rt rs : Reg) (imm : Word) (a : Arch) : Arch :=
  { a with
    mem := memWrite p a.mem (effectiveAddress (readReg a.x rs) imm) (readReg a.x rt)
    pc := a.pc + 4 }

/-- LW's step: the clock edge with LW at the pc (R191, pipeline path). -/
def execLw (rt rs : Reg) (imm : Word) (s : State) : Host.Outcome State Fault Refusal := clock (.lw rt rs imm) s

/-- SW's step (R192). -/
def execSw (rt rs : Reg) (imm : Word) (s : State) : Host.Outcome State Fault Refusal := clock (.sw rt rs imm) s

end Sys2Proof.Machine
end

