-- ==== Sys2Proof/Machine/Nop.lean ====
section
/-! DEFINITION. NOP, a real instruction and no bubble (spec/44_nop.md R211, R212): its architectural effect and
its step. -/

namespace Sys2Proof.Machine

/-- NOP, architectural effect (R211). -/
def archNop (a : Arch) : Arch := { a with pc := a.pc + 4 }

/-- NOP's step: the clock edge with NOP at the pc (R211, pipeline path). -/
def execNop (s : State) : Host.Outcome State Fault Refusal := clock .nop s

end Sys2Proof.Machine
end

