-- ==== Sys2Proof/Machine/Dispatch.lean ====
section
/-! DEFINITION. The dispatch: one arm per constructor of `Instr`, one meaning per arm. -/

namespace Sys2Proof.Machine

/-- The clock edge with the instruction at the pc. -/
def exec (i : Instr) (s : State) : Host.Outcome State Fault Refusal :=
  match i with
  | .add rd rs rt => Sys2Proof.Machine.execAdd rd rs rt s
  | .sub rd rs rt => Sys2Proof.Machine.execSub rd rs rt s
  | .and rd rs rt => Sys2Proof.Machine.execAnd rd rs rt s
  | .or rd rs rt => Sys2Proof.Machine.execOr rd rs rt s
  | .lw rt rs imm => Sys2Proof.Machine.execLw rt rs imm s
  | .sw rt rs imm => Sys2Proof.Machine.execSw rt rs imm s
  | .beq rs rt imm => Sys2Proof.Machine.execBeq rs rt imm s
  | .nop => Sys2Proof.Machine.execNop s

end Sys2Proof.Machine
end

