-- ==== Sys2Proof/Machine/Step.lean ====
section
/-! DEFINITION. One step of the core, one clock edge (spec/40_pipeline.md R131): the instruction at the pc runs
its edge, and where fetch gives a bubble the edge runs with a bubble. -/

namespace Sys2Proof.Machine

/-- `step()` (R131, R156). -/
def step (s : State) : Host.Outcome State Fault Refusal :=
  match fetch s.program s.pc with
  | some r => exec r.instr s
  | none => edge none s

/-- The state with the instruction a table word stands for in the slot `step` fetches next; a word that is no
instruction cannot be held by instruction memory (spec/30_encoding.md R119) and changes nothing. -/
def State.withFetchWord (s : State) (nbits w : Nat) : State :=
  match decodeTableWord nbits w with
  | some i => placeInstr i s
  | none => s

end Sys2Proof.Machine
end

