-- ==== Sys2Proof/Machine/Arch.lean ====
section
/-! DEFINITION. Sequential execution, the other description the spec gives of every instruction ("architectural
effect ... as sequential execution sees it", head of spec/41_alu.md), and the sequential view of a pipeline state:
what the registers, the memory, the pc and the branch counters are once the instructions in flight have completed
(spec/40_pipeline.md R159; spec/70_reset_and_hazards.md R275). `step` does not use this file. -/

namespace Sys2Proof.Machine

/-- The architectural effect of an instruction (R181 to R184, R191, R192, R201, R211). -/
def archEffect (p : Params) (i : Instr) (a : Arch) : Arch :=
  match i with
  | .add rd rs rt => archAdd rd rs rt a
  | .sub rd rs rt => archSub rd rs rt a
  | .and rd rs rt => archAnd rd rs rt a
  | .or rd rs rt => archOr rd rs rt a
  | .lw rt rs imm => archLw p rt rs imm a
  | .sw rt rs imm => archSw p rt rs imm a
  | .beq rs rt imm => archBeq rs rt imm a
  | .nop => archNop a

/-- One sequential step: the instruction at the pc has its effect; outside the program nothing happens and the
pc still rises by 4 (spec/40_pipeline.md R149). -/
def archStep (p : Params) (program : List Record) (a : Arch) : Arch :=
  match fetch program a.pc with
  | some r => archEffect p r.instr a
  | none => { a with pc := a.pc + 4 }

/-- The registers once the instructions in MEM/WB and EX/MEM have been written back. -/
def regsBehindEx (s : State) : Regs :=
  match newMemWb s with
  | some w => if w.ctrl.regWrite then writeDest (wbRegs s) w.dest w.writeData else wbRegs s
  | none => wbRegs s

/-- The machine with MEM/WB and EX/MEM completed and nothing younger: what the instruction in EX meets. -/
def behindEx (s : State) : Arch :=
  { pc := s.pc, x := regsBehindEx s, mem := memAfter s, branchCount := s.stats.branchCount
    branchMispredictions := s.stats.branchMispredictions }

/-- An instruction in flight completes on a machine state, from its own address. -/
def completeFrom (p : Params) (r : Record) (addr : Int) (a : Arch) : Arch :=
  archEffect p r.instr { a with pc := addr }

/-- The instruction in EX completed as well. If it is a taken branch the pc is its target, else the fetch pc. -/
def behindId (s : State) : Arch :=
  match s.idex with
  | some d =>
    let a := completeFrom s.params d.instr d.addr (behindEx s)
    if branchTaken s then a else { a with pc := s.pc }
  | none => behindEx s

/-- The sequential view: every instruction in flight completed, the one in IF/ID only if the branch in EX does
not squash it. -/
def settled (s : State) : Arch :=
  match s.ifid with
  | some f => if branchTaken s then behindId s else completeFrom s.params f.instr f.addr (behindId s)
  | none => behindId s

/-- The instruction in IF/ID is a BEQ that sequential execution takes, so that the slot fetched behind it this
step will be squashed. -/
def decodingTakenBranch (s : State) : Bool :=
  match s.ifid with
  | some f =>
    match f.instr.instr with
    | .beq rs rt _ => branchCondition (readReg (behindId s).x rs) (readReg (behindId s).x rt)
    | .add _ _ _ | .sub _ _ _ | .and _ _ _ | .or _ _ _ | .lw _ _ _ | .sw _ _ _ | .nop => false
  | none => false

/-- The step fetches on the path sequential execution follows: no stall, no branch taken in EX, none about to be
taken from IF/ID. -/
def fetchesOnPath (s : State) : Bool := !stalls s && !branchTaken s && !decodingTakenBranch s

end Sys2Proof.Machine
end

