-- ==== Sys2Proof/Machine/Assembler.lean ====
section
/-! DEFINITION. The assembler `parse` (spec/30_encoding.md R94 to R113): source text to raw records and errors,
in two passes, pure and total. It works on lists of characters. -/

namespace Sys2Proof.Machine

/-- A parse error (R108). The message is any text (I8), log entry 2. -/
structure ParseError where
  line : Nat
  kind : ParseErrorKind
  message : String
  deriving DecidableEq, Repr

/-- The result of `parse` (R110). -/
structure ParseResult where
  instructions : List RawRecord
  errors : List ParseError
  deriving DecidableEq, Repr

/-- The label table of pass 1: label and the instruction index it names (R99). -/
abbrev Labels := List (List Char × Nat)

/-- One source line after pass 1: its 1-based number, its label error, its instruction part and index. -/
structure ScannedLine where
  line : Nat
  labelError : Option ParseErrorKind
  part : Option (Nat × List Char)
  deriving DecidableEq, Repr

/-! Characters and tokens -/

/-- Whitespace is spaces and tabs (R96, D26). -/
def isBlank (c : Char) : Bool := c == ' ' || c == '\t'

/-- A decimal digit. -/
def isDecimal (c : Char) : Bool := decide (48 ≤ c.toNat ∧ c.toNat ≤ 57)

/-- A letter `A` to `Z` or `a` to `z`. -/
def isLetter (c : Char) : Bool :=
  decide (65 ≤ c.toNat ∧ c.toNat ≤ 90) || decide (97 ≤ c.toNat ∧ c.toNat ≤ 122)

/-- The character in upper case, letters only. -/
def upperCase (c : Char) : Char :=
  if 97 ≤ c.toNat ∧ c.toNat ≤ 122 then Char.ofNat (c.toNat - 32) else c

/-- The value of a hex digit in either case. -/
def hexDigit (c : Char) : Option Nat :=
  if isDecimal c then some (c.toNat - 48)
  else if 65 ≤ c.toNat ∧ c.toNat ≤ 70 then some (c.toNat - 55)
  else if 97 ≤ c.toNat ∧ c.toNat ≤ 102 then some (c.toNat - 87)
  else none

/-- The value of a decimal digit. -/
def decimalDigit (c : Char) : Option Nat := if isDecimal c then some (c.toNat - 48) else none

/-- The number the digits write in a base, continuing from `acc`; none if a character is no digit. -/
def digitsFrom (base : Nat) (digit : Char → Option Nat) : Nat → List Char → Option Nat
  | acc, [] => some acc
  | acc, c :: rest =>
    match digit c with
    | some d => digitsFrom base digit (base * acc + d) rest
    | none => none

/-- One or more digits in a base. -/
def digitsIn (base : Nat) (digit : Char → Option Nat) (l : List Char) : Option Nat :=
  if l.isEmpty then none else digitsFrom base digit 0 l

/-- Leading and trailing blanks removed. -/
def trim (l : List Char) : List Char := ((l.dropWhile isBlank).reverse.dropWhile isBlank).reverse

/-- The pieces between the occurrences of a character, at least one. -/
def splitAtChar (c : Char) : List Char → List (List Char)
  | [] => [[]]
  | h :: t =>
    if h = c then [] :: splitAtChar c t
    else
      match splitAtChar c t with
      | [] => [[h]]
      | p :: ps => (h :: p) :: ps

/-- A register token: `R` or `r`, then one or more decimal digits of value 0 to 31 (R103). -/
def registerToken (l : List Char) : Option Nat :=
  match l with
  | c :: ds =>
    if upperCase c = 'R' then
      match digitsIn 10 decimalDigit ds with
      | some n => if n < 32 then some n else none
      | none => none
    else none
  | [] => none

/-- An unsigned literal: `0x` or `0X` and hex digits, or decimal digits (R104). -/
def magnitudeLiteral (l : List Char) : Option Nat :=
  match l with
  | '0' :: 'x' :: ds => digitsIn 16 hexDigit ds
  | '0' :: 'X' :: ds => digitsIn 16 hexDigit ds
  | ds => digitsIn 10 decimalDigit ds

/-- An integer literal with its optional sign (R104). -/
def integerLiteral (l : List Char) : Option Int :=
  match l with
  | '+' :: ds => (magnitudeLiteral ds).map fun n => (n : Int)
  | '-' :: ds => (magnitudeLiteral ds).map fun n => -(n : Int)
  | ds => (magnitudeLiteral ds).map fun n => (n : Int)

/-- A valid label: a letter or `_`, then letters, digits and `_` (R97). -/
def validLabel (l : List Char) : Bool :=
  match l with
  | c :: rest => (isLetter c || c == '_') && rest.all fun d => isLetter d || isDecimal d || d == '_'
  | [] => false

/-- The first binding of a label (R98). -/
def lookupLabel (labels : Labels) (l : List Char) : Option Nat :=
  (labels.find? fun e => e.1 == l).map (·.2)

/-! Pass 1 -/

/-- A carriage return at the end of a line removed. -/
def dropReturn (l : List Char) : List Char := if l.getLast? = some '\r' then l.dropLast else l

/-- The carriage return immediately before each line feed removed; the last piece ends in no line feed (R94). -/
def dropReturns : List (List Char) → List (List Char)
  | [] => []
  | [l] => [l]
  | l :: rest => dropReturn l :: dropReturns rest

/-- The lines of a source text (R94). -/
def sourceLines (text : List Char) : List (List Char) := dropReturns (splitAtChar '\n' text)

/-- The line without its comment, trimmed (R95, R96). -/
def strippedLine (l : List Char) : List Char := trim (l.takeWhile (· != '#'))

/-- The label candidate of a stripped line, if it has a `:`, and its instruction part (R97). -/
def splitLabel (l : List Char) : Option (List Char) × List Char :=
  if l.contains ':' then (some (trim (l.takeWhile (· != ':'))), trim ((l.dropWhile (· != ':')).drop 1))
  else (none, l)

/-- Pass 1's verdict on a label candidate: the new table, and the error if there is one (R97 to R99). -/
def bindLabel (labels : Labels) (index : Nat) (candidate : Option (List Char)) : Labels × Option ParseErrorKind :=
  match candidate with
  | none => (labels, none)
  | some l =>
    if validLabel l then
      match lookupLabel labels l with
      | some _ => (labels, some .duplicateLabel)
      | none => (labels ++ [(l, index)], none)
    else (labels, some .invalidLabel)

/-- Pass 1 over the lines from line number `n`, with the label table and instruction index so far (R94 to
R100). A line whose instruction part is empty takes no index. -/
def scanLines : Nat → Nat → Labels → List (List Char) → Labels × List ScannedLine
  | _, _, labels, [] => (labels, [])
  | n, index, labels, l :: rest =>
    let (candidate, part) := splitLabel (strippedLine l)
    let (labels', err) := bindLabel labels index candidate
    let item := if part.isEmpty then none else some (index, part)
    let (labels'', scanned) := scanLines (n + 1) (if part.isEmpty then index else index + 1) labels' rest
    (labels'', { line := n, labelError := err, part := item } :: scanned)

/-! Pass 2 -/

/-- The opcode of a token, in any letter case (R101). -/
def opcodeToken (l : List Char) : Option Op :=
  let u := l.map upperCase
  if u = ['A', 'D', 'D'] then some .add
  else if u = ['S', 'U', 'B'] then some .sub
  else if u = ['A', 'N', 'D'] then some .and
  else if u = ['O', 'R'] then some .or
  else if u = ['L', 'W'] then some .lw
  else if u = ['S', 'W'] then some .sw
  else if u = ['B', 'E', 'Q'] then some .beq
  else if u = ['N', 'O', 'P'] then some .nop
  else none

/-- The operand list of an operand text (R102). -/
def operandList (l : List Char) : List (List Char) :=
  if l.isEmpty then [] else (splitAtChar ',' l).map trim

/-- A memory operand, `offset(Rbase)`: the offset and the base (R105). The base token is what stands between the
first `(` and a `)` that ends the operand; where there is no such single token the shape is wrong (DESIGN CHOICE,
log entry 8). -/
def memoryOperand (l : List Char) : Except ParseErrorKind (Int × Nat) :=
  match integerLiteral (trim (l.takeWhile (· != '('))), l.dropWhile (· != '(') with
  | some offset, _ :: inner =>
    let base := trim (inner.takeWhile (· != ')'))
    if inner.dropWhile (· != ')') = [')'] && !base.isEmpty && !base.any (fun c => isBlank c || c == '(') then
      match registerToken base with
      | some r => .ok (offset, r)
      | none => .error .invalidRegister
    else .error .invalidMemOffset
  | _, _ => .error .invalidMemOffset

/-- A branch target: the displacement of a literal, or of a label's address (R84, R106). -/
def branchOperand (labels : Labels) (pc : Int) (l : List Char) : Except ParseErrorKind Int :=
  match integerLiteral l with
  | some v => .ok v
  | none =>
    match lookupLabel labels l with
    | some index => .ok ((4 * (index : Int) - (pc + 4)) / 4)
    | none => .error .unresolvedLabel

/-- A register operand (R103). -/
def registerOperand (l : List Char) : Except ParseErrorKind Nat :=
  match registerToken l with
  | some r => .ok r
  | none => .error .invalidRegister

/-- Three register operands, checked left to right (R102). -/
def threeRegisters (a b c : List Char) : Except ParseErrorKind (Nat × Nat × Nat) :=
  match registerOperand a, registerOperand b, registerOperand c with
  | .error e, _, _ => .error e
  | .ok _, .error e, _ => .error e
  | .ok _, .ok _, .error e => .error e
  | .ok x, .ok y, .ok z => .ok (x, y, z)

/-- The record of ADD, SUB, AND or OR from its operands (R102, R107). -/
def assembleR (op : Op) (pc : Int) (text : String) (operands : List (List Char)) : Except ParseErrorKind RawRecord :=
  match operands with
  | [a, b, c] =>
    match threeRegisters a b c with
    | .ok (rd, rs, rt) =>
      .ok { op := op, rd := some rd, rs := some rs, rt := some rt, imm := none, target := none, text := text, pc := pc }
    | .error e => .error e
  | _ => .error .wrongOperandCount

/-- The record of LW or SW from its operands (R102, R105, R107). -/
def assembleM (op : Op) (pc : Int) (text : String) (operands : List (List Char)) : Except ParseErrorKind RawRecord :=
  match operands with
  | [a, m] =>
    match registerOperand a, memoryOperand m with
    | .error e, _ => .error e
    | .ok _, .error e => .error e
    | .ok rt, .ok (offset, base) =>
      .ok { op := op, rd := none, rs := some base, rt := some rt, imm := some offset, target := none, text := text,
            pc := pc }
  | _ => .error .wrongOperandCount

/-- The record of BEQ from its operands (R84, R102, R106, R107). -/
def assembleB (labels : Labels) (pc : Int) (text : String) (operands : List (List Char)) :
    Except ParseErrorKind RawRecord :=
  match operands with
  | [a, b, t] =>
    match registerOperand a, registerOperand b, branchOperand labels pc t with
    | .error e, _, _ => .error e
    | .ok _, .error e, _ => .error e
    | .ok _, .ok _, .error e => .error e
    | .ok rs, .ok rt, .ok imm =>
      .ok { op := .beq, rd := none, rs := some rs, rt := some rt, imm := some imm, target := some (pc + 4 + 4 * imm),
            text := text, pc := pc }
  | _ => .error .wrongOperandCount

/-- The record of NOP, which has no operand (R102, R107). -/
def assembleN (pc : Int) (text : String) (operands : List (List Char)) : Except ParseErrorKind RawRecord :=
  match operands with
  | [] =>
    .ok { op := .nop, rd := none, rs := none, rt := none, imm := none, target := none, text := text, pc := pc }
  | _ => .error .wrongOperandCount

/-- Pass 2 on one instruction part: its record, or the first check that fails (R101, R102, R107). -/
def assemblePart (labels : Labels) (index : Nat) (part : List Char) : Except ParseErrorKind RawRecord :=
  let pc : Int := 4 * (index : Int)
  let text := String.ofList part
  let operands := operandList (trim (part.dropWhile fun c => !isBlank c))
  match opcodeToken (part.takeWhile fun c => !isBlank c) with
  | none => .error .unknownOpcode
  | some .lw => assembleM .lw pc text operands
  | some .sw => assembleM .sw pc text operands
  | some .beq => assembleB labels pc text operands
  | some .nop => assembleN pc text operands
  | some .add => assembleR .add pc text operands
  | some .sub => assembleR .sub pc text operands
  | some .and => assembleR .and pc text operands
  | some .or => assembleR .or pc text operands

/-- Pass 2 on one line: nothing for a line without an instruction part. -/
def assembleLine (labels : Labels) (s : ScannedLine) : Option (Except ParseErrorKind RawRecord) :=
  s.part.map fun p => assemblePart labels p.1 p.2

/-- The parse error of a kind on a line. -/
def parseErrorAt (line : Nat) (kind : ParseErrorKind) : ParseError :=
  { line := line, kind := kind, message := Config.parseMessage kind line }

/-- The errors of one line: the pass-1 error before the pass-2 error (R109). -/
def lineErrors (labels : Labels) (s : ScannedLine) : List ParseError :=
  (s.labelError.toList ++
    (match assembleLine labels s with
      | some (.error e) => [e]
      | some (.ok _) => []
      | none => [])).map (parseErrorAt s.line)

/-- The record of one line, if pass 2 built it (R107, R110). -/
def lineRecord (labels : Labels) (s : ScannedLine) : List RawRecord :=
  match assembleLine labels s with
  | some (.ok r) => [r]
  | some (.error _) => []
  | none => []

/-- `parse(source)` (R94 to R112): pass 1 over all lines, then pass 2 over all lines with the whole label
table. -/
def parse (source : String) : ParseResult :=
  let (labels, lines) := scanLines 1 0 [] (sourceLines source.toList)
  { instructions := lines.flatMap (lineRecord labels), errors := lines.flatMap (lineErrors labels) }

end Sys2Proof.Machine
end

