-- ==== Sys2Proof/Machine/Records.lean ====
section
/-! DEFINITION. The two forms of an instruction record (spec/30_encoding.md R81, R83): from the raw form a host
or the parser hands over to the loaded form, refusing what is ill-formed (spec/45_snapshot_and_host.md R217), and
back to the raw form with its explicit optional fields. -/

namespace Sys2Proof.Machine

/-- The opcode of an instruction. -/
def opOf : Instr → Op
  | .add _ _ _ => .add
  | .sub _ _ _ => .sub
  | .and _ _ _ => .and
  | .or _ _ _ => .or
  | .lw _ _ _ => .lw
  | .sw _ _ _ => .sw
  | .beq _ _ _ => .beq
  | .nop => .nop

/-- The `rd` field, present in format R only (R83). -/
def rdOf : Instr → Option Reg
  | .add rd _ _ | .sub rd _ _ | .and rd _ _ | .or rd _ _ => some rd
  | .lw _ _ _ | .sw _ _ _ | .beq _ _ _ | .nop => none

/-- The `rs` field (R83). -/
def rsOf : Instr → Option Reg
  | .add _ rs _ | .sub _ rs _ | .and _ rs _ | .or _ rs _ => some rs
  | .lw _ rs _ | .sw _ rs _ | .beq rs _ _ => some rs
  | .nop => none

/-- The `rt` field (R83). -/
def rtOf : Instr → Option Reg
  | .add _ _ rt | .sub _ _ rt | .and _ _ rt | .or _ _ rt => some rt
  | .lw rt _ _ | .sw rt _ _ | .beq _ rt _ => some rt
  | .nop => none

/-- The record with its optional fields explicit (R81). -/
def rawOf (r : Record) : RawRecord :=
  { op := opOf r.instr
    rd := (rdOf r.instr).map (·.val)
    rs := (rsOf r.instr).map (·.val)
    rt := (rtOf r.instr).map (·.val)
    imm := (immOf r.instr).map (·.toInt)
    target := targetOf r
    text := r.text
    pc := r.pc }

/-- A register field as a register. -/
def regField (n : Option Nat) : Option Reg := n.bind fun k => if h : k < 32 then some ⟨k, h⟩ else none

/-- An immediate field as an Int32. -/
def immField (v : Option Int) : Option Word := v.map wrap32

/-- The typed instruction of a raw record that has the fields of its format. -/
def instrOfRaw (r : RawRecord) : Option Instr :=
  match r.op, regField r.rd, regField r.rs, regField r.rt, immField r.imm with
  | .add, some rd, some rs, some rt, none => some (.add rd rs rt)
  | .sub, some rd, some rs, some rt, none => some (.sub rd rs rt)
  | .and, some rd, some rs, some rt, none => some (.and rd rs rt)
  | .or, some rd, some rs, some rt, none => some (.or rd rs rt)
  | .lw, none, some rs, some rt, some imm => some (.lw rt rs imm)
  | .sw, none, some rs, some rt, some imm => some (.sw rt rs imm)
  | .beq, none, some rs, some rt, some imm => some (.beq rs rt imm)
  | .nop, none, none, none, none => some .nop
  | _, _, _, _, _ => none

/-- The loaded form of a raw record at position `i`, none where it is not well-formed there (R217). -/
def recordAt (i : Nat) (r : RawRecord) : Option Record :=
  if r.wellFormedAt i then (instrOfRaw r).map fun instr => { instr := instr, text := r.text, pc := r.pc } else none

/-- The loaded form of a list whose first position is `i`. -/
def recordsFrom : Nat → List RawRecord → Option (List Record)
  | _, [] => some []
  | i, r :: rest =>
    match recordAt i r, recordsFrom (i + 1) rest with
    | some rec, some recs => some (rec :: recs)
    | _, _ => none

/-- The program a list of raw records loads as, none where the list is not a well-formed program (R217). -/
def programOf (l : List RawRecord) : Option (List Record) := recordsFrom 0 l

end Sys2Proof.Machine
end

