-- ==== Sys2Proof/Machine/Snapshot.lean ====
section
/-! DEFINITION. The snapshot, a value computed from the current state only (spec/45_snapshot_and_host.md R225
to R231). -/

namespace Sys2Proof.Machine

/-- The five stages, in the order of the stage views (R226). -/
inductive StageName where
  | fetch | decode | execute | memory | writeBack
  deriving DecidableEq, Repr

/-- One hazard annotation of a stage view (R227). -/
inductive Annotation where
  | stall
  | flush
  | forward (pairs : List (Slot × ForwardSource))
  | branchTaken
  deriving DecidableEq, Repr

/-- A stage view (R226); an empty annotation list is "none". -/
structure StageView where
  stage : StageName
  text : Option String
  annotations : List Annotation
  deriving DecidableEq, Repr

/-- A snapshot (R225). `cpi` and `branchAccuracy` are exact rationals (R231, D20). -/
structure Snapshot where
  cycle : Nat
  halted : Bool
  stages : List StageView
  registers : Regs
  memory : List Word
  stats : Stats
  cpi : Rat
  branchAccuracy : Rat
  stalled : Bool
  flushed : Bool
  forwards : List Forward
  events : List Event
  deriving DecidableEq, Repr

/-- The reason string of an event (R228). -/
def eventReason : Event → String
  | .forward _ _ _ _ => "forward"
  | .stall _ _ _ => "load-use"
  | .flush _ _ _ => "branch-taken"

/-- The register of an event, none for FLUSH (R228). -/
def eventRegister : Event → Option Reg
  | .forward reg _ _ _ => some reg
  | .stall reg _ _ => some reg
  | .flush _ _ _ => none

/-- Cycles per instruction (spec/10_state.md R33, R231). -/
def cpiOf (s : Stats) : Rat :=
  if 0 < s.instructionsCompleted then (s.cycleCount : Rat) / (s.instructionsCompleted : Rat) else (s.cycleCount : Rat)

/-- Branch accuracy in per cent (spec/10_state.md R33, R231). -/
def branchAccuracyOf (s : Stats) : Rat :=
  if 0 < s.branchCount then
    ((s.branchCount : Rat) - (s.branchMispredictions : Rat)) / (s.branchCount : Rat) * 100
  else 100

/-- The annotations IF and ID share: STALL in a stalled step, FLUSH in a flushed one (R227). -/
def frontAnnotations (l : LastStep) : List Annotation :=
  (if l.stalled then [.stall] else []) ++ (if l.flushed then [.flush] else [])

/-- The annotations of EX (R227). -/
def executeAnnotations (l : LastStep) : List Annotation :=
  (if l.forwards.isEmpty then [] else [.forward (l.forwards.map fun f => (f.slot, f.source))]) ++
    (if l.flushed then [.branchTaken] else [])

/-- The five stage views (R226, R227). -/
def stageViews (s : State) : List StageView :=
  [ { stage := .fetch, text := s.fetchInstr.map (·.text), annotations := frontAnnotations s.last },
    { stage := .decode, text := s.last.stageId.map (·.text), annotations := frontAnnotations s.last },
    { stage := .execute, text := s.last.stageEx.map (·.text), annotations := executeAnnotations s.last },
    { stage := .memory, text := s.last.stageMem.map (·.text), annotations := [] },
    { stage := .writeBack, text := s.last.stageWb.map (·.text), annotations := [] } ]

/-- The full memory array `mem[0..MEM_WORDS-1]` (R225). -/
def memoryArray (s : State) : List Word := (List.range s.params.memWords).map (loadWord s.mem)

/-- `getSnapshot()` (R221, R225). -/
def snapshot (s : State) : Snapshot :=
  { cycle := s.stats.cycleCount
    halted := s.halted
    stages := stageViews s
    registers := s.x
    memory := memoryArray s
    stats := s.stats
    cpi := cpiOf s.stats
    branchAccuracy := branchAccuracyOf s.stats
    stalled := s.last.stalled
    flushed := s.last.flushed
    forwards := s.last.forwards
    events := s.last.events }

end Sys2Proof.Machine
end

