-- ==== Sys2Proof/Machine/HostOps.lean ====
section
/-! DEFINITION. The operations the host calls (spec/45_snapshot_and_host.md R216 to R224, R233, R234), one call
at a time. A refused call and a failed parse leave the state unchanged. -/

namespace Sys2Proof.Machine

/-- One call of an engine operation (R216). -/
inductive HostCall where
  | loadProgram (instructions : List RawRecord)
  | loadProgramFromSource (text : String)
  | reset (clearProgram : Bool)
  | step
  | getSnapshot
  | exportState
  | restoreState (e : EngineState)
  deriving DecidableEq, Repr

/-- What a call answers (R216, R234). -/
inductive HostReply where
  /-- The operation was performed and returns nothing. -/
  | done
  /-- The result of the parse; the program was loaded exactly if it lists no error. -/
  | parsed (r : ParseResult)
  | snapshot (v : Snapshot)
  | exported (e : EngineState)
  /-- A rejection; the state is unchanged. -/
  | refused (r : Refusal)
  deriving DecidableEq, Repr

/-- A latch's record is a record of the loaded program, and the latch's address is its address (spec/10_state.md
R44). -/
def heldAt (program : List Record) (r : Record) (addr : Int) : Bool :=
  fetch program r.pc == some r && addr == r.pc

/-- The IF/ID part of R44. -/
def ifidAgrees (program : List Record) (f : IfId) : Bool := heldAt program f.instr f.addr

/-- The ID/EX part of R44: record, control signals, destination, immediate, target. -/
def idexAgrees (program : List Record) (d : IdEx) : Bool :=
  heldAt program d.instr d.addr && d.ctrl == ctrlOf d.instr.instr && d.dest == destOf d.instr.instr &&
    d.imm == immOf d.instr.instr && d.target == targetOf d.instr

/-- The EX/MEM part of R44: record, control signals, destination. -/
def exmemAgrees (program : List Record) (e : ExMem) : Bool :=
  heldAt program e.instr e.addr && e.ctrl == ctrlOf e.instr.instr && e.dest == destOf e.instr.instr

/-- The MEM/WB part of R44: record, control signals, destination. -/
def memwbAgrees (program : List Record) (w : MemWb) : Bool :=
  heldAt program w.instr w.addr && w.ctrl == ctrlOf w.instr.instr && w.dest == destOf w.instr.instr

/-- The well-formed state of spec/10_state.md R44, for the loaded program. That every value is an Int32 holds by
type; that memory is in its canonical form under MEM_WORDS is the model's own part (log entry 10). R44's list names
neither `fetchInstr` nor `last`, so no condition is put on them, R42's range of a forward record's `reg` included
(DESIGN CHOICE, log entry 16). -/
def State.wellFormed (s : State) : Bool :=
  decide (s.pc % 4 = 0) && decide (readReg s.x 0 = 0) && decide (Memory.wf s.params.memWords s.mem) &&
    s.ifid.all (ifidAgrees s.program) && s.idex.all (idexAgrees s.program) && s.exmem.all (exmemAgrees s.program) &&
    s.memwb.all (memwbAgrees s.program) &&
    (!s.halted || haltTest s.ifid s.idex s.exmem s.memwb s.pc s.program)

/-- `loadProgram` (R217): refused unless the list is a well-formed program, else everything at its reset value
around the new program. -/
def loadProgram (l : List RawRecord) (s : State) : State × HostReply :=
  match programOf l with
  | some program => (State.fresh s.params program, .done)
  | none => (s, .refused .illFormedProgram)

/-- `loadProgramFromSource` (R218): parse, then load if there is no error; a literal outside Int32 is refused
(spec/30_encoding.md R111). -/
def loadProgramFromSource (text : String) (s : State) : State × HostReply :=
  let r := parse text
  if r.errors.isEmpty then
    match loadProgram r.instructions s with
    | (_, .refused reason) => (s, .refused reason)
    | (s', _) => (s', .parsed r)
  else (s, .parsed r)

/-- `reset(clearProgram)` (R219). -/
def resetEngine (clearProgram : Bool) (s : State) : State :=
  State.fresh s.params (if clearProgram then [] else s.program)

/-- `step()` as a host call: the state after the edge and its snapshot (R220). -/
def stepEngine (s : State) : State × HostReply :=
  match step s with
  | .next s' => (s', .snapshot (snapshot s'))
  | .refused r => (s, .refused r)
  | .fault r => nomatch r

/-- `exportState()` (R222, R224). -/
def exportState (s : State) : EngineState :=
  { pc := s.pc, x := s.x, mem := s.mem, halted := s.halted, stats := s.stats, ifid := s.ifid, idex := s.idex
    exmem := s.exmem, memwb := s.memwb, fetchInstr := s.fetchInstr, last := s.last }

/-- The state with every component but the program (and the parameters) replaced (R223). -/
def installed (e : EngineState) (s : State) : State :=
  { params := s.params, program := s.program, pc := e.pc, x := e.x, mem := e.mem, halted := e.halted, stats := e.stats
    ifid := e.ifid, idex := e.idex, exmem := e.exmem, memwb := e.memwb, fetchInstr := e.fetchInstr, last := e.last }

/-- `restoreState(s)` (R223): refused unless well-formed for the loaded program. The fourth row of R233's table has a
state that is well-formed for another program accepted; the model follows R223, R44 and R233's third row, and refuses
it unless it is well-formed for the loaded program too (DESIGN CHOICE, log entry 17). -/
def restoreState (e : EngineState) (s : State) : State × HostReply :=
  if (installed e s).wellFormed then (installed e s, .done) else (s, .refused .illFormedState)

/-- One call of an engine operation: the state after it and the answer (R216). -/
def hostCall (c : HostCall) (s : State) : State × HostReply :=
  match c with
  | .loadProgram l => loadProgram l s
  | .loadProgramFromSource text => loadProgramFromSource text s
  | .reset clearProgram => (resetEngine clearProgram s, .done)
  | .step => stepEngine s
  | .getSnapshot => (s, .snapshot (snapshot s))
  | .exportState => (s, .exported (exportState s))
  | .restoreState e => restoreState e s

end Sys2Proof.Machine
end

