-- ==== Sys2Proof/Safety.lean ====
section
/-! DEFINITION. The invariants in whose terms the statements about every state are made: the well-formed machine
(spec/10_state.md R44 with R82 and R7), and the coherent pipeline, in which what EX will use is what sequential
execution would give (spec/40_pipeline.md R159). -/

namespace Sys2Proof.Machine

/-- The machine is well-formed: the state by R44, the program by spec/30_encoding.md R82, the parameters by
spec/00_scope.md R7. -/
def State.Inv (s : State) : Prop :=
  s.wellFormed = true ∧ programAddressed s.program = true ∧ s.params.InBounds

/-- EX/MEM holds no unready load of a nonzero source register of the instruction in ID/EX (R159). -/
def noUnreadyLoad (s : State) : Bool :=
  match s.idex, s.exmem with
  | some d, some e =>
    match e.dest with
    | some r => !(e.ctrl.memToReg && r != 0 && readsReg d.instr.instr r)
    | none => true
  | _, _ => true

/-- The operand EX will use for a slot is the value sequential execution would give (R159). -/
def operandAgrees (s : State) (slot : Option Reg) (operand : Word) : Bool :=
  match slot with
  | some r => operand == readReg (regsBehindEx s) r
  | none => true

/-- The pipeline is coherent: R159's two facts, and the pc is the address behind the instruction in IF/ID. -/
def State.Coherent (s : State) : Prop :=
  noUnreadyLoad s = true ∧
  (∀ d, s.idex = some d →
    operandAgrees s (slotA d.instr.instr) (opA s d) = true ∧ operandAgrees s (slotB d.instr.instr) (opB s d) = true) ∧
  (∀ f, s.ifid = some f → s.pc = f.addr + 4)

/-- The pipeline is empty: all four latches are bubbles. -/
def State.Drained (s : State) : Prop := s.ifid = none ∧ s.idex = none ∧ s.exmem = none ∧ s.memwb = none

end Sys2Proof.Machine
end

