-- ==== Sys2Proof/Certificates/Slice0/Obligations.lean ====
section
/-! DEFINITION. The statements for the provers. Each docstring names the rules of spec/ it formalises. `settled`
is the sequential view of a pipeline state (Machine/Arch.lean); `State.Inv`, `State.Coherent` and `State.Drained`
are in Safety.lean. Nothing here rests on the values of `Config`. -/

open Sys2Proof Sys2Proof.Machine

/-! Encoding -/

/-- Decoding what encoding gives: every instruction that has a binary form is read back as itself, with every
operand at every value (30_encoding.md section 5). The layout is the spec's reference encoding (D2). -/
def Obligations.DecodeOfEncodeIsIdentity : Prop :=
  ∀ i : Instr, i.hasBinaryForm = true → ∃ w, encode i = some w ∧ decode w = .ok i

/-- Encoding is the inverse of decoding: every word that decodes is the encoding of what it decodes to, so no bit of
it is ignored, and an instruction has no encoding exactly when its immediate lies outside -32768 to 32767
(30_encoding.md section 5). -/
def Obligations.EncodeOfDecodeIsIdentity : Prop :=
  (∀ (w : Word) (i : Instr), decode w = .ok i → encode i = some w) ∧
  (∀ i : Instr, encode i = none ↔ ∃ imm, immOf i = some imm ∧ (imm.toInt < -32768 ∨ 32767 < imm.toInt))

/-- No word is covered by two rows of the encoding table (30_encoding.md section 5, R119's inference). -/
def Obligations.EncodingRowsAreDisjoint : Prop :=
  ∀ (w : Word), ∀ r₁ ∈ encodingTable, ∀ r₂ ∈ encodingTable, r₁.covers w = true → r₂.covers w = true → r₁ = r₂

/-- The ten worked encodings of 30_encoding.md section 5, both ways. -/
def Obligations.WorkedEncodingsHold : Prop :=
  ∀ p ∈ ([(0x00430820, .add 1 2 3), (0x00252022, .sub 4 1 5), (0x00243024, .and 6 1 4), (0x00C23825, .or 7 6 2),
      (0x8C410000, .lw 1 2 0), (0xAC440008, .sw 4 2 8), (0x8C41FFFC, .lw 1 2 (-4)), (0x10220002, .beq 1 2 2),
      (0x1000FFFF, .beq 0 0 (-1)), (0x00000000, .nop)] : List (Word × Instr)),
    decode p.1 = .ok p.2 ∧ encode p.2 = some p.1

/-- The control signals of every instruction, with its source slots and its destination (30_encoding.md sections 1
and 2: R86, R87, R89). The source lists the signals without their values: the slots, destinations and the table are
the spec's own reading (92_eei_decisions.md D13, D14, D15). -/
def Obligations.DecodeTables : Prop :=
  (∀ rd rs rt : Reg, ∀ p ∈ ([(.add rd rs rt, .add), (.sub rd rs rt, .sub), (.and rd rs rt, .and),
      (.or rd rs rt, .or)] : List (Instr × AluOp)),
    slotA p.1 = some rs ∧ slotB p.1 = some rt ∧ destOf p.1 = some rd ∧
      ctrlOf p.1 = ⟨true, false, false, false, false, p.2, false, false⟩) ∧
  (∀ (rt rs : Reg) (imm : Word),
    slotA (.lw rt rs imm) = some rs ∧ slotB (.lw rt rs imm) = none ∧ destOf (.lw rt rs imm) = some rt ∧
      ctrlOf (.lw rt rs imm) = ⟨true, true, false, true, false, .add, true, false⟩) ∧
  (∀ (rt rs : Reg) (imm : Word),
    slotA (.sw rt rs imm) = some rs ∧ slotB (.sw rt rs imm) = some rt ∧ destOf (.sw rt rs imm) = none ∧
      ctrlOf (.sw rt rs imm) = ⟨false, false, true, false, false, .add, true, false⟩) ∧
  (∀ (rs rt : Reg) (imm : Word),
    slotA (.beq rs rt imm) = some rs ∧ slotB (.beq rs rt imm) = some rt ∧ destOf (.beq rs rt imm) = none ∧
      ctrlOf (.beq rs rt imm) = ⟨false, false, false, false, true, .sub, false, false⟩) ∧
  (slotA .nop = none ∧ slotB .nop = none ∧ destOf .nop = none ∧
    ctrlOf .nop = ⟨false, false, false, false, false, .none, false, true⟩)

/-! A step runs the fetched instruction -/

/-- When Fetch gives the record of an instruction, the step is that instruction's `exec`, nothing around it; when
it gives a bubble, the step is the edge with a bubble (40_pipeline.md sections 1 and 6). That `exec i` is the clock
edge on which `i` enters the pipeline, so that `step` needs nothing around it, is the model's choice (log entry 9). -/
def Obligations.StepRunsTheFetchedInstruction : Prop :=
  (∀ (s : State) (r : Record), fetch s.program s.pc = some r → step s = exec r.instr s) ∧
  (∀ s : State, fetch s.program s.pc = none → step s = edge none s)

/-- A table word placed where the machine fetches next is the instruction the very next step runs: it stands in
IF/ID after the step, at the pc it was fetched from (30_encoding.md section 5, 40_pipeline.md section 6). The spec has
no such operation: the placing (NOP padding, `halted` cleared, ID/EX emptied where it would stall or squash) is the
model's choice (log entry 7), and so is reading the low 32 bits of a table word as the instruction (log entry 11). -/
def Obligations.PlacedWordRunsNext : Prop :=
  ∀ (s : State) (nbits w : Nat) (i : Instr), decodeTableWord nbits w = some i →
    ∃ t, step (s.withFetchWord nbits w) = .next t ∧ exec i (s.withFetchWord nbits w) = .next t ∧
      ∃ f, t.ifid = some f ∧ f.instr.instr = i ∧ f.addr = (s.withFetchWord nbits w).pc ∧ f.instr.pc = f.addr

/-! Registers, memory and fetch -/

/-- The register write primitive, and WB as its only caller in a step (R23). -/
def Obligations.RegisterWritePrimitive : Prop :=
  (∀ (x : Regs) (i : Reg) (v : Word), i ≠ 0 →
    readReg (writeReg x i v) i = v ∧ ∀ j, j ≠ i → readReg (writeReg x i v) j = readReg x j) ∧
  (∀ (x : Regs) (v : Word), writeReg x 0 v = x) ∧
  (∀ s t : State, step s = .next t → t.x ≠ s.x →
    ∃ w d, s.memwb = some w ∧ w.ctrl.regWrite = true ∧ w.dest = some d ∧ t.x = writeReg s.x d w.writeData)

/-- No step changes what register 0 reads as, in any state (10_state.md section 2, the source's property in
R24). -/
def Obligations.RegisterZeroNeverChanges : Prop :=
  ∀ s t : State, step s = .next t → readReg t.x 0 = readReg s.x 0

/-- The word index of a data address, clause by clause, and the unsigned reading of it (20_memory.md section 1, R63).
The source decides that an aligned address is bounds-checked; that its index is `a / 4` and both misaligned branches
are the spec's choice (92_eei_decisions.md D7, D8), and the unsigned reading is the spec's inference from the bound
on MEM_WORDS (R8). -/
def Obligations.WordIndexRule : Prop :=
  ∀ (p : Params) (a : Word),
    (a.toInt % 4 = 0 → 0 ≤ a.toInt → a.toInt / 4 < p.memWords → wordIndex p a = some (a.toInt / 4).toNat) ∧
    (a.toInt % 4 = 0 → (p.memWords : Int) ≤ a.toInt / 4 → wordIndex p a = none) ∧
    (a.toInt % 4 ≠ 0 → p.misalign = .truncate → 0 ≤ a.toInt → a.toInt / 4 < p.memWords →
      wordIndex p a = some (a.toInt / 4).toNat) ∧
    (a.toInt % 4 ≠ 0 → p.misalign = .truncate → (p.memWords : Int) ≤ a.toInt / 4 → wordIndex p a = none) ∧
    (a.toInt % 4 ≠ 0 → p.misalign = .outOfRange → wordIndex p a = none) ∧
    (a.toInt < 0 → wordIndex p a = none) ∧
    (p.InBounds → wordIndex p a =
      if a.toNat % 4 = 0 ∨ p.misalign = .truncate then
        if a.toNat / 4 < p.memWords then some (a.toNat / 4) else none
      else none)

/-- Reads and writes of data memory: in range the one word named and no other, out of range 0 and no effect
(20_memory.md section 2). The premise is the memory's canonical form, which every step keeps
(`StepKeepsInvariant`). -/
def Obligations.MemoryReadAndWrite : Prop :=
  ∀ (p : Params) (m : Memory) (a v : Word), Memory.wf p.memWords m →
    (∀ k, wordIndex p a = some k →
      memRead p m a = loadWord m k ∧
      ∀ j, loadWord (memWrite p m a v) j = if j = k then v else loadWord m j) ∧
    (wordIndex p a = none → memRead p m a = 0 ∧ memWrite p m a v = m)

/-- The fetch primitive for a pc that is a multiple of 4 (R68). -/
def Obligations.FetchRule : Prop :=
  ∀ (program : List Record) (p : Int), p % 4 = 0 →
    (∀ k : Nat, p = 4 * (k : Int) → fetch program p = program[k]?) ∧
    (p < 0 → fetch program p = none) ∧
    (4 * (program.length : Int) ≤ p → fetch program p = none)

/-! The stages of one step -/

/-- WB (R134): the whole register file and `instructionsCompleted` after a step. -/
def Obligations.WriteBackStage : Prop :=
  ∀ s t : State, s.halted = false → step s = .next t →
    (s.memwb = none → t.x = s.x ∧ t.stats.instructionsCompleted = s.stats.instructionsCompleted) ∧
    (∀ w, s.memwb = some w →
      t.stats.instructionsCompleted = s.stats.instructionsCompleted + 1 ∧
      (∀ d, w.ctrl.regWrite = true → w.dest = some d → d ≠ 0 →
        readReg t.x d = w.writeData ∧ ∀ j, j ≠ d → readReg t.x j = readReg s.x j) ∧
      (w.ctrl.regWrite = false ∨ w.dest = none ∨ w.dest = some 0 → t.x = s.x))

/-- MEM (R135): data memory and the MEM/WB latch after a step. -/
def Obligations.MemoryStage : Prop :=
  ∀ s t : State, s.halted = false → step s = .next t →
    (s.exmem = none → t.mem = s.mem ∧ t.memwb = none) ∧
    (∀ e, s.exmem = some e →
      t.mem = (if e.ctrl.memWrite = true then memWrite s.params s.mem e.aluResult e.storeData else s.mem) ∧
      ∃ w, t.memwb = some w ∧ w.instr = e.instr ∧ w.addr = e.addr ∧ w.dest = e.dest ∧ w.ctrl = e.ctrl ∧
        w.writeData =
          if e.ctrl.memToReg = true then
            (if e.ctrl.memRead = true then memRead s.params s.mem e.aluResult else 0)
          else e.aluResult)

/-- The forwarding unit (R137), applied to slot A, then slot B of the instruction in EX; on one slot: register 0,
EX/MEM, MEM/WB, neither, and a slot the instruction does not have; with the forward record of each case. -/
def Obligations.ForwardingUnit : Prop :=
  (∀ (s : State) (d : IdEx), s.idex = some d →
    opA s d = operandOf s.exmem s.memwb (slotA d.instr.instr) d.rsVal ∧
    opB s d = operandOf s.exmem s.memwb (slotB d.instr.instr) d.rtVal ∧
    stepForwards s =
      forwardsOf s.exmem s.memwb .a (slotA d.instr.instr) ++ forwardsOf s.exmem s.memwb .b (slotB d.instr.instr)) ∧
  ∀ (exmem : Option ExMem) (memwb : Option MemWb) (sl : Slot) (base : Word),
    (operandOf exmem memwb none base = 0 ∧ forwardsOf exmem memwb sl none = []) ∧
    (operandOf exmem memwb (some 0) base = base ∧ forwardsOf exmem memwb sl (some 0) = []) ∧
    (∀ r : Reg, r ≠ 0 →
      (∀ e, exmem = some e → e.ctrl.regWrite = true → e.dest = some r → e.ctrl.memToReg = false →
        operandOf exmem memwb (some r) base = e.aluResult ∧
        forwardsOf exmem memwb sl (some r) = [⟨sl, r, .exmem, e.aluResult⟩]) ∧
      ((∀ e, exmem = some e → ¬(e.ctrl.regWrite = true ∧ e.dest = some r ∧ e.ctrl.memToReg = false)) →
        (∀ w, memwb = some w → w.ctrl.regWrite = true → w.dest = some r →
          operandOf exmem memwb (some r) base = w.writeData ∧
          forwardsOf exmem memwb sl (some r) = [⟨sl, r, .memwb, w.writeData⟩]) ∧
        ((∀ w, memwb = some w → ¬(w.ctrl.regWrite = true ∧ w.dest = some r)) →
          operandOf exmem memwb (some r) base = base ∧ forwardsOf exmem memwb sl (some r) = [])))

/-- EX (R140, R141, R143): the EX/MEM latch after a step from a well-formed state. The operands are those
of the forwarding unit (`ForwardingUnit`). -/
def Obligations.ExecuteStage : Prop :=
  ∀ s t : State, s.Inv → s.halted = false → step s = .next t →
    (s.idex = none → t.exmem = none) ∧
    (∀ d, s.idex = some d → ∃ e a b srcB,
      a = operandOf s.exmem s.memwb (slotA d.instr.instr) d.rsVal ∧
      b = operandOf s.exmem s.memwb (slotB d.instr.instr) d.rtVal ∧
      (d.ctrl.useImmediate = true → d.imm = some srcB) ∧ (d.ctrl.useImmediate = false → srcB = b) ∧
      t.exmem = some e ∧ e.instr = d.instr ∧ e.addr = d.addr ∧ e.dest = d.dest ∧ e.ctrl = d.ctrl ∧
      e.storeData = b ∧
      (d.ctrl.aluOp = .add → e.aluResult = wrap32 (a.toInt + srcB.toInt)) ∧
      (d.ctrl.aluOp = .sub → e.aluResult = wrap32 (a.toInt - srcB.toInt)) ∧
      (d.ctrl.aluOp = .and → e.aluResult = a &&& srcB) ∧
      (d.ctrl.aluOp = .or → e.aluResult = a ||| srcB) ∧
      (d.ctrl.aluOp = .none → e.aluResult = 0) ∧
      (e.branchTaken = true ↔ d.ctrl.isBranch = true ∧ a = b) ∧
      e.branchTarget = if d.ctrl.isBranch = true then d.target else none)

/-- The forwarding list of a step (R139; 45_snapshot_and_host.md section 3): it holds at most one record per slot,
slot A first, never register 0, and `forwardCount` rises by its length. -/
def Obligations.ForwardAccounting : Prop :=
  ∀ s t : State, s.halted = false → step s = .next t →
    t.stats.forwardCount = s.stats.forwardCount + t.last.forwards.length ∧
    t.last.forwards.map (·.slot) ∈ [[], [Slot.a], [Slot.b], [Slot.a, Slot.b]] ∧
    ∀ f ∈ t.last.forwards, f.reg ≠ 0

/-- Branch resolution in EX (R142): both counters, and the branch fields of EX/MEM. -/
def Obligations.BranchResolution : Prop :=
  ∀ s t : State, s.halted = false → step s = .next t →
    (∀ d, s.idex = some d → d.ctrl.isBranch = true →
      t.stats.branchCount = s.stats.branchCount + 1 ∧
      (opA s d = opB s d → t.stats.branchMispredictions = s.stats.branchMispredictions + 1) ∧
      (opA s d ≠ opB s d → t.stats.branchMispredictions = s.stats.branchMispredictions) ∧
      ∃ e, t.exmem = some e ∧ (e.branchTaken = true ↔ opA s d = opB s d) ∧ e.branchTarget = d.target) ∧
    (∀ d, s.idex = some d → d.ctrl.isBranch = false →
      t.stats.branchCount = s.stats.branchCount ∧
      t.stats.branchMispredictions = s.stats.branchMispredictions ∧
      ∃ e, t.exmem = some e ∧ e.branchTaken = false ∧ e.branchTarget = none) ∧
    (s.idex = none →
      t.stats.branchCount = s.stats.branchCount ∧ t.stats.branchMispredictions = s.stats.branchMispredictions)

/-- The load-use check (R144): a step stalls exactly when ID/EX holds a memory read with a nonzero destination
that is a source register of the instruction in IF/ID. -/
def Obligations.StallExactlyOnLoadUse : Prop :=
  ∀ s t : State, s.halted = false → step s = .next t →
    (t.last.stalled = true ↔
      ∃ f d r, s.ifid = some f ∧ s.idex = some d ∧ d.ctrl.memRead = true ∧ d.dest = some r ∧ r ≠ 0 ∧
        (slotA f.instr.instr = some r ∨ slotB f.instr.instr = some r))

/-- The stall action and fetch under a stall (R145, R148), from a well-formed state. -/
def Obligations.StallHoldsTheFront : Prop :=
  ∀ (s t : State) (f : IfId) (d : IdEx) (r : Reg), s.Inv → s.halted = false → step s = .next t →
    s.ifid = some f → s.idex = some d → d.ctrl.memRead = true → d.dest = some r → r ≠ 0 →
    (slotA f.instr.instr = some r ∨ slotB f.instr.instr = some r) →
    t.idex = none ∧ t.ifid = some f ∧ t.pc = s.pc ∧ t.fetchInstr = some f.instr ∧
      t.stats.stallCount = s.stats.stallCount + 1 ∧ t.last.stalled = true ∧
      t.last.events =
        (t.last.forwards.map fun fw => Event.forward fw.reg fw.source fw.slot d.instr) ++
          [Event.stall r d.instr f.instr] ∧
      eventReason (.stall r d.instr f.instr) = "load-use"

/-- Normal decode (R146): the ID/EX latch, its register values read after this step's WB write. -/
def Obligations.DecodeStage : Prop :=
  ∀ (s t : State) (f : IfId), s.halted = false → step s = .next t → s.ifid = some f →
    t.last.stalled = false → t.last.flushed = false →
    ∃ d, t.idex = some d ∧ d.instr = f.instr ∧ d.addr = f.addr ∧
      (∀ r, slotA f.instr.instr = some r → d.rsVal = readReg t.x r) ∧
      (slotA f.instr.instr = none → d.rsVal = 0) ∧
      (∀ r, slotB f.instr.instr = some r → d.rtVal = readReg t.x r) ∧
      (slotB f.instr.instr = none → d.rtVal = 0) ∧
      d.dest = destOf f.instr.instr ∧ d.imm = immOf f.instr.instr ∧ d.target = targetOf f.instr ∧
      d.ctrl = ctrlOf f.instr.instr

/-- Decode of a bubble: with nothing in IF/ID the step is no stall and leaves a bubble in ID/EX, whether or not it
flushes (40_pipeline.md section 5, R147, which the spec derives from R144). -/
def Obligations.DecodeOfABubble : Prop :=
  ∀ s t : State, s.halted = false → step s = .next t → s.ifid = none → t.idex = none ∧ t.last.stalled = false

/-- Normal fetch (R149): in every step that does not stall, IF presents what Fetch(pc) gives, a bubble past the
end, and the candidate pc is pc + 4 either way. -/
def Obligations.FetchStage : Prop :=
  ∀ s t : State, s.halted = false → step s = .next t → t.last.stalled = false →
    t.fetchInstr = fetch s.program s.pc ∧
    (t.last.flushed = false →
      t.pc = s.pc + 4 ∧ t.ifid = (fetch s.program s.pc).map fun r => { instr := r, addr := s.pc })

/-- Branch override (R150), from a well-formed state: a taken branch in EX empties IF/ID and ID/EX, redirects the
pc and logs the squashed instructions; without one nothing is flushed. -/
def Obligations.BranchOverride : Prop :=
  ∀ s t : State, s.Inv → s.halted = false → step s = .next t →
    (∀ d, s.idex = some d → d.ctrl.isBranch = true → opA s d = opB s d →
      ∃ target, d.target = some target ∧ t.pc = target ∧ t.ifid = none ∧ t.idex = none ∧ t.last.flushed = true ∧
        t.last.events =
          (t.last.forwards.map fun fw => Event.forward fw.reg fw.source fw.slot d.instr) ++
            [Event.flush d.instr target
              ((s.ifid.map (·.instr)).toList ++ (fetch s.program s.pc).toList)]) ∧
    ((∀ d, s.idex = some d → ¬(d.ctrl.isBranch = true ∧ opA s d = opB s d)) →
      t.last.flushed = false ∧ t.pc = if t.last.stalled = true then s.pc else s.pc + 4)

/-- The pc after a step (R27): unchanged in a stall cycle, the target of the BEQ taken in EX, else pc + 4. -/
def Obligations.ProgramCounterMoves : Prop :=
  ∀ s t : State, s.Inv → s.halted = false → step s = .next t →
    (t.last.stalled = true → t.pc = s.pc) ∧
    (t.last.flushed = true →
      ∃ d rs rt imm, s.idex = some d ∧ d.instr.instr = .beq rs rt imm ∧ t.pc = d.instr.pc + 4 + 4 * imm.toInt) ∧
    (t.last.stalled = false → t.last.flushed = false → t.pc = s.pc + 4)

/-- The six counters after a step of an engine that is not halted, and at reset (R32, R152). -/
def Obligations.StatisticsOfAStep : Prop :=
  (∀ s t : State, s.halted = false → step s = .next t →
    t.stats.cycleCount = s.stats.cycleCount + 1 ∧
    t.stats.instructionsCompleted = s.stats.instructionsCompleted + (if s.memwb.isNone = true then 0 else 1) ∧
    t.stats.stallCount = s.stats.stallCount + (if t.last.stalled = true then 1 else 0) ∧
    t.stats.forwardCount = s.stats.forwardCount + t.last.forwards.length ∧
    (∀ d, s.idex = some d → t.stats.branchCount = s.stats.branchCount + if d.ctrl.isBranch = true then 1 else 0) ∧
    (s.idex = none → t.stats.branchCount = s.stats.branchCount) ∧
    t.stats.branchMispredictions = s.stats.branchMispredictions + (if t.last.flushed = true then 1 else 0)) ∧
  State.reset.stats = ⟨0, 0, 0, 0, 0, 0⟩

/-- The halt check (R154): committed latches, new pc, program length. -/
def Obligations.HaltCheck : Prop :=
  ∀ s t : State, s.halted = false → step s = .next t →
    (t.halted = true ↔
      t.ifid = none ∧ t.idex = none ∧ t.exmem = none ∧ t.memwb = none ∧ 4 * (t.program.length : Int) ≤ t.pc)

/-- The last-cycle record (R155), from a well-formed state. -/
def Obligations.LastCycleRecord : Prop :=
  ∀ s t : State, s.Inv → s.halted = false → step s = .next t →
    t.last.stageId = s.ifid.map (·.instr) ∧ t.last.stageEx = s.idex.map (·.instr) ∧
    t.last.stageMem = s.exmem.map (·.instr) ∧ t.last.stageWb = s.memwb.map (·.instr) ∧
    (t.last.stalled = true → t.fetchInstr = s.ifid.map (·.instr)) ∧
    (t.last.stalled = false → t.fetchInstr = fetch s.program s.pc) ∧
    t.last.stalled = stalls s ∧ t.last.flushed = branchTaken s ∧ t.last.forwards = stepForwards s ∧
    ∃ fw st fl, t.last.events = fw ++ st ++ fl ∧
      (s.idex = none → fw = []) ∧
      (∀ d, s.idex = some d → fw = t.last.forwards.map fun f => Event.forward f.reg f.source f.slot d.instr) ∧
      (t.last.stalled = false → st = []) ∧ (t.last.stalled = true → ∃ r load held, st = [.stall r load held]) ∧
      (t.last.flushed = false → fl = []) ∧ (t.last.flushed = true → ∃ b target sq, fl = [.flush b target sq])

/-! Properties of the pipeline (40_pipeline.md section 9) -/

/-- A stall and a flush never happen in the same step of a well-formed machine (40_pipeline.md section 9). -/
def Obligations.StallAndFlushExclusive : Prop :=
  ∀ s t : State, s.Inv → s.halted = false → step s = .next t → ¬(t.last.stalled = true ∧ t.last.flushed = true)

/-- A load-use stall lasts one step: the next step does not stall, and the held instruction decodes
(40_pipeline.md section 9). -/
def Obligations.StallLastsOneStep : Prop :=
  ∀ s t u : State, s.Inv → s.halted = false → step s = .next t → t.last.stalled = true → step t = .next u →
    u.last.stalled = false ∧ u.last.flushed = false ∧
    ∃ f d, s.ifid = some f ∧ u.idex = some d ∧ d.instr = f.instr

/-- A halted engine: any number of steps changes nothing, and only `loadProgram`, `loadProgramFromSource`,
`reset` and `restoreState` can change it (45_snapshot_and_host.md section 4). -/
def Obligations.HaltedIsStable : Prop :=
  ∀ s : State, s.halted = true →
    (∀ n, core.run n s = .next s) ∧
    (hostCall .step s).1 = s ∧ (hostCall .getSnapshot s).1 = s ∧ (hostCall .exportState s).1 = s

/-- No step changes the program or the parameters: no store reaches instruction memory (20_memory.md section 4,
10_state.md section 5). -/
def Obligations.StepKeepsProgramAndParameters : Prop :=
  ∀ (i : Instr) (s t : State), (step s = .next t ∨ exec i s = .next t) → t.program = s.program ∧ t.params = s.params

/-! Invariants -/

/-- The constructed machine is well-formed and coherent, whatever the OPEN parameters are (10_state.md sections 7
and 8; the parameters' place in State is the model's choice, log entry 1). -/
def Obligations.ResetIsSound : Prop := State.reset.Inv ∧ State.reset.Coherent

/-- Every step of a well-formed machine leaves it well-formed (10_state.md section 7). -/
def Obligations.StepKeepsInvariant : Prop := ∀ s t : State, s.Inv → step s = .next t → t.Inv

/-- Every step keeps the pipeline coherent: no unready load meets its consumer in EX, and every operand EX will
use is the sequential one (40_pipeline.md section 9). -/
def Obligations.StepKeepsCoherence : Prop :=
  ∀ s t : State, s.Inv → s.Coherent → step s = .next t → t.Coherent

/-- Every host call leaves a well-formed machine well-formed, and a load or reset leaves it coherent too
(10_state.md sections 7 and 8, 45_snapshot_and_host.md section 1). -/
def Obligations.HostCallsKeepInvariant : Prop :=
  (∀ (c : HostCall) (s : State), s.Inv → (hostCall c s).1.Inv) ∧
  (∀ (l : List RawRecord) (s : State), (hostCall (.loadProgram l) s).2 = .done →
    (hostCall (.loadProgram l) s).1.Coherent) ∧
  (∀ (b : Bool) (s : State), (hostCall (.reset b) s).1.Coherent)

/-- A step of a well-formed machine always answers a next state: nothing faults and nothing is refused
(60_exceptions.md section 1). -/
def Obligations.WellFormedStepAnswers : Prop :=
  ∀ s : State, s.Inv → (∃ t, step s = .next t) ∧ ∀ i, ∃ t, exec i s = .next t

/-! The effect of every instruction, in any coherent pipeline -/

/-- ADD, SUB, AND, OR fetched on the path of execution: the step answers, and in the sequential view exactly the
destination register (none for register 0) and the pc change (41_alu.md). -/
def Obligations.AluInstructionsTakeEffect : Prop :=
  ∀ (rd rs rt : Reg) (s : State), s.Inv → s.Coherent → s.halted = false → fetchesOnPath s = true →
    ∀ p ∈ ([(.add rd rs rt, wrap32 ((readReg (settled s).x rs).toInt + (readReg (settled s).x rt).toInt)),
        (.sub rd rs rt, wrap32 ((readReg (settled s).x rs).toInt - (readReg (settled s).x rt).toInt)),
        (.and rd rs rt, readReg (settled s).x rs &&& readReg (settled s).x rt),
        (.or rd rs rt, readReg (settled s).x rs ||| readReg (settled s).x rt)] : List (Instr × Word)),
      ∃ t, exec p.1 s = .next t ∧
        settled t = { settled s with x := writeReg (settled s).x rd p.2, pc := (settled s).pc + 4 }

/-- LW fetched on the path of execution: exactly the destination register, which gets the word at the wrapped
address or 0 out of range, and the pc change (42_load_store.md). -/
def Obligations.LwTakesEffect : Prop :=
  ∀ (rt rs : Reg) (imm : Word) (s : State), s.Inv → s.Coherent → s.halted = false → fetchesOnPath s = true →
    ∃ t, exec (.lw rt rs imm) s = .next t ∧
      settled t =
        { settled s with
          x := writeReg (settled s).x rt
            (memRead s.params (settled s).mem (wrap32 ((readReg (settled s).x rs).toInt + imm.toInt)))
          pc := (settled s).pc + 4 }

/-- SW fetched on the path of execution: exactly the word at the wrapped address, none out of range, and the pc
change (42_load_store.md). -/
def Obligations.SwTakesEffect : Prop :=
  ∀ (rt rs : Reg) (imm : Word) (s : State), s.Inv → s.Coherent → s.halted = false → fetchesOnPath s = true →
    ∃ t, exec (.sw rt rs imm) s = .next t ∧
      settled t =
        { settled s with
          mem := memWrite s.params (settled s).mem (wrap32 ((readReg (settled s).x rs).toInt + imm.toInt))
            (readReg (settled s).x rt)
          pc := (settled s).pc + 4 }

/-- BEQ fetched on the path of execution: the pc becomes the target when the registers are equal, else the next
address, and the branch counters rise; registers and memory are unchanged (43_branch.md). -/
def Obligations.BeqTakesEffect : Prop :=
  ∀ (rs rt : Reg) (imm : Word) (s : State), s.Inv → s.Coherent → s.halted = false → fetchesOnPath s = true →
    ∃ t, exec (.beq rs rt imm) s = .next t ∧
      (readReg (settled s).x rs = readReg (settled s).x rt →
        settled t =
          { settled s with
            pc := (settled s).pc + 4 + 4 * imm.toInt
            branchCount := (settled s).branchCount + 1
            branchMispredictions := (settled s).branchMispredictions + 1 }) ∧
      (readReg (settled s).x rs ≠ readReg (settled s).x rt →
        settled t =
          { settled s with pc := (settled s).pc + 4, branchCount := (settled s).branchCount + 1 })

/-- NOP fetched on the path of execution: only the pc changes (44_nop.md). -/
def Obligations.NopTakesEffect : Prop :=
  ∀ s : State, s.Inv → s.Coherent → s.halted = false → fetchesOnPath s = true →
    ∃ t, exec .nop s = .next t ∧ settled t = { settled s with pc := (settled s).pc + 4 }

/-! The passage of every instruction through an empty pipeline -/

/-- ADD, SUB, AND, OR into an empty pipeline: after the first edge the pc is 4 higher, after the fourth data
memory is as before, after the fifth the register file is the old one with the destination written, and the
instruction is counted (41_alu.md, pipeline paths). -/
def Obligations.AluInstructionsPassThrough : Prop :=
  ∀ (rd rs rt : Reg) (s : State), s.Drained → s.halted = false →
    ∀ p ∈ ([(.add rd rs rt, wrap32 ((readReg s.x rs).toInt + (readReg s.x rt).toInt)),
        (.sub rd rs rt, wrap32 ((readReg s.x rs).toInt - (readReg s.x rt).toInt)),
        (.and rd rs rt, readReg s.x rs &&& readReg s.x rt),
        (.or rd rs rt, readReg s.x rs ||| readReg s.x rt)] : List (Instr × Word)),
      ∃ s1 s4 s5 : State, exec p.1 s = .next s1 ∧ core.run 3 s1 = .next s4 ∧ step s4 = .next s5 ∧
        s1.pc = s.pc + 4 ∧ s4.mem = s.mem ∧ s5.x = writeReg s.x rd p.2 ∧
        s5.stats.instructionsCompleted = s.stats.instructionsCompleted + 1

/-- LW into an empty pipeline: after the fourth edge data memory is as before, after the fifth the register file
is the old one with the loaded word written (42_load_store.md, pipeline path). -/
def Obligations.LwPassesThrough : Prop :=
  ∀ (rt rs : Reg) (imm : Word) (s : State), s.Drained → s.halted = false →
    ∃ s1 s4 s5 : State, exec (.lw rt rs imm) s = .next s1 ∧ core.run 3 s1 = .next s4 ∧ step s4 = .next s5 ∧
      s1.pc = s.pc + 4 ∧ s4.mem = s.mem ∧
      s5.x = writeReg s.x rt (memRead s.params s.mem (wrap32 ((readReg s.x rs).toInt + imm.toInt))) ∧
      s5.stats.instructionsCompleted = s.stats.instructionsCompleted + 1

/-- SW into an empty pipeline: after the fourth edge data memory is the old one with the word at the computed
address written, after the fifth the register file is as before (42_load_store.md, pipeline path). -/
def Obligations.SwPassesThrough : Prop :=
  ∀ (rt rs : Reg) (imm : Word) (s : State), s.Drained → s.halted = false →
    ∃ s1 s4 s5 : State, exec (.sw rt rs imm) s = .next s1 ∧ core.run 3 s1 = .next s4 ∧ step s4 = .next s5 ∧
      s1.pc = s.pc + 4 ∧
      s4.mem = memWrite s.params s.mem (wrap32 ((readReg s.x rs).toInt + imm.toInt)) (readReg s.x rt) ∧
      s5.x = s.x ∧ s5.stats.instructionsCompleted = s.stats.instructionsCompleted + 1

/-- BEQ into an empty pipeline: on the third edge it is resolved; taken, the pc is the target and the two slots
behind it are empty; not taken, the pc is 12 higher; registers and memory are as before when it completes
(43_branch.md, pipeline path). -/
def Obligations.BeqPassesThrough : Prop :=
  ∀ (rs rt : Reg) (imm : Word) (s : State), s.Inv → s.Drained → s.halted = false →
    ∃ s1 s3 s4 s5 : State, exec (.beq rs rt imm) s = .next s1 ∧ core.run 2 s1 = .next s3 ∧ step s3 = .next s4 ∧
      step s4 = .next s5 ∧
      s3.stats.branchCount = s.stats.branchCount + 1 ∧
      (readReg s.x rs = readReg s.x rt →
        s3.pc = s.pc + 4 + 4 * imm.toInt ∧ s3.ifid = none ∧ s3.idex = none ∧
        s3.stats.branchMispredictions = s.stats.branchMispredictions + 1) ∧
      (readReg s.x rs ≠ readReg s.x rt →
        s3.pc = s.pc + 12 ∧ s3.stats.branchMispredictions = s.stats.branchMispredictions) ∧
      s4.mem = s.mem ∧ s5.x = s.x ∧ s5.stats.instructionsCompleted = s.stats.instructionsCompleted + 1

/-- NOP into an empty pipeline: nothing but its passage, and it is counted as completed (44_nop.md). -/
def Obligations.NopPassesThrough : Prop :=
  ∀ s : State, s.Drained → s.halted = false →
    ∃ s1 s4 s5 : State, exec .nop s = .next s1 ∧ core.run 3 s1 = .next s4 ∧ step s4 = .next s5 ∧
      s1.pc = s.pc + 4 ∧ s1.ifid ≠ none ∧ s4.mem = s.mem ∧ s5.x = s.x ∧
      s5.stats.instructionsCompleted = s.stats.instructionsCompleted + 1

/-! The pipeline and sequential execution -/

/-- In an empty pipeline the sequential view is the state itself (head of 41_alu.md). -/
def Obligations.SettledWhenDrained : Prop :=
  ∀ s : State, s.Drained →
    settled s = ⟨s.pc, s.x, s.mem, s.stats.branchCount, s.stats.branchMispredictions⟩

/-- One step of the pipeline is one sequential step when it fetches on the path of execution, and no sequential
step otherwise (40_pipeline.md section 9). -/
def Obligations.StepRefinesSequential : Prop :=
  ∀ s t : State, s.Inv → s.Coherent → s.halted = false → step s = .next t →
    settled t =
      if fetchesOnPath s = true then archStep s.params s.program (settled s) else settled s

/-- Any run of the pipeline from a coherent state is a sequential run of at most as many steps, and where it ends
with an empty pipeline its registers and memory are those of that sequential run (40_pipeline.md section 9,
70_reset_and_hazards.md section 2). -/
def Obligations.RunRefinesSequential : Prop :=
  ∀ (n : Nat) (s t : State), s.Inv → s.Coherent → core.run n s = .next t →
    ∃ m, m ≤ n ∧ settled t = (archStep s.params s.program)^[m] (settled s) ∧
      (t.Drained →
        t.x = ((archStep s.params s.program)^[m] (settled s)).x ∧
        t.mem = ((archStep s.params s.program)^[m] (settled s)).mem)

/-! The host interface -/

/-- `loadProgram` (R217): a well-formed list is loaded record by record around the reset state, any other is
refused and changes nothing. -/
def Obligations.LoadProgramRule : Prop :=
  ∀ (l : List RawRecord) (s : State),
    (rawProgramWellFormed l = true →
      ∃ program, program.map rawOf = l ∧ hostCall (.loadProgram l) s = (State.fresh s.params program, .done)) ∧
    (rawProgramWellFormed l = false → hostCall (.loadProgram l) s = (s, .refused .illFormedProgram))

/-- `loadProgramFromSource` (45_snapshot_and_host.md section 1): an error list leaves the state unchanged and is
returned; an error-free parse is loaded, or refused if it is not a well-formed program. That the reply in the last
case is the refusal alone, without the parse result, is the model's choice (log entry 12). -/
def Obligations.LoadFromSourceRule : Prop :=
  ∀ (text : String) (s : State),
    ((parse text).errors ≠ [] → hostCall (.loadProgramFromSource text) s = (s, .parsed (parse text))) ∧
    ((parse text).errors = [] → rawProgramWellFormed (parse text).instructions = true →
      ∃ program, program.map rawOf = (parse text).instructions ∧
        hostCall (.loadProgramFromSource text) s = (State.fresh s.params program, .parsed (parse text))) ∧
    ((parse text).errors = [] → rawProgramWellFormed (parse text).instructions = false →
      hostCall (.loadProgramFromSource text) s = (s, .refused .illFormedProgram))

/-- Whatever the assembler accepts without an error and with Int32 immediates is a well-formed program
(45_snapshot_and_host.md section 1). -/
def Obligations.ParserOutputIsWellFormed : Prop :=
  ∀ text : String, (parse text).errors = [] →
    (∀ r ∈ (parse text).instructions, ∀ v, r.imm = some v → InInt32 v) →
    rawProgramWellFormed (parse text).instructions = true

/-- Parse errors come in line order, at most one label error and at most one other error a line, the label error
first (30_encoding.md section 4). -/
def Obligations.ParseErrorsInOrder : Prop :=
  ∀ text : String,
    (parse text).errors.Pairwise fun a b =>
      a.line < b.line ∨
        (a.line = b.line ∧ (a.kind = .invalidLabel ∨ a.kind = .duplicateLabel) ∧
          b.kind ≠ .invalidLabel ∧ b.kind ≠ .duplicateLabel)

/-- `reset(clearProgram)` (R219 with the values of R45). -/
def Obligations.ResetRule : Prop :=
  ∀ (b : Bool) (s : State), ∃ t, hostCall (.reset b) s = (t, .done) ∧
    t.program = (if b = true then [] else s.program) ∧ t.params = s.params ∧ t.pc = 0 ∧
    (∀ r, readReg t.x r = 0) ∧ (∀ k, loadWord t.mem k = 0) ∧ t.halted = false ∧ t.stats = ⟨0, 0, 0, 0, 0, 0⟩ ∧
    t.ifid = none ∧ t.idex = none ∧ t.exmem = none ∧ t.memwb = none ∧ t.fetchInstr = none ∧
    t.last = ⟨none, none, none, none, false, false, [], []⟩

/-- `restoreState` (R223, R233 with the well-formed state of R44, and R24): a state that is well-formed for the loaded
program replaces every component but the program, any other is refused and changes nothing. Then what is refused, part
by part: a nonzero register 0, a pc that is no multiple of 4, a latch whose record, address, control signals,
destination, immediate or target disagrees with the program or the tables, a `halted` that the latches and the pc
contradict. Three points are the model's choice: refusing a memory list that is not canonical under MEM_WORDS (log
entry 10), putting no condition on `last` (log entry 16), and refusing latches that agree only with another program,
where R223 and the fourth row of R233's table differ (log entry 17). -/
def Obligations.RestoreStateRule : Prop :=
  ∀ (e : EngineState) (s : State),
    ((installed e s).wellFormed = true →
      ∃ t, hostCall (.restoreState e) s = (t, .done) ∧ exportState t = e ∧ t.program = s.program ∧
        t.params = s.params) ∧
    ((installed e s).wellFormed = false → hostCall (.restoreState e) s = (s, .refused .illFormedState)) ∧
    (readReg e.x 0 ≠ 0 → hostCall (.restoreState e) s = (s, .refused .illFormedState)) ∧
    (e.pc % 4 ≠ 0 → hostCall (.restoreState e) s = (s, .refused .illFormedState)) ∧
    (∀ f, e.ifid = some f → (fetch s.program f.instr.pc ≠ some f.instr ∨ f.addr ≠ f.instr.pc) →
      hostCall (.restoreState e) s = (s, .refused .illFormedState)) ∧
    (∀ d, e.idex = some d →
      (fetch s.program d.instr.pc ≠ some d.instr ∨ d.addr ≠ d.instr.pc ∨ d.ctrl ≠ ctrlOf d.instr.instr ∨
        d.dest ≠ destOf d.instr.instr ∨ d.imm ≠ immOf d.instr.instr ∨ d.target ≠ targetOf d.instr) →
      hostCall (.restoreState e) s = (s, .refused .illFormedState)) ∧
    (∀ m, e.exmem = some m →
      (fetch s.program m.instr.pc ≠ some m.instr ∨ m.addr ≠ m.instr.pc ∨ m.ctrl ≠ ctrlOf m.instr.instr ∨
        m.dest ≠ destOf m.instr.instr) →
      hostCall (.restoreState e) s = (s, .refused .illFormedState)) ∧
    (∀ w, e.memwb = some w →
      (fetch s.program w.instr.pc ≠ some w.instr ∨ w.addr ≠ w.instr.pc ∨ w.ctrl ≠ ctrlOf w.instr.instr ∨
        w.dest ≠ destOf w.instr.instr) →
      hostCall (.restoreState e) s = (s, .refused .illFormedState)) ∧
    (e.halted = true →
      ¬(e.ifid = none ∧ e.idex = none ∧ e.exmem = none ∧ e.memwb = none ∧ 4 * (s.program.length : Int) ≤ e.pc) →
      hostCall (.restoreState e) s = (s, .refused .illFormedState)) ∧
    (¬Memory.wf s.params.memWords e.mem → hostCall (.restoreState e) s = (s, .refused .illFormedState))

/-- Export and restore: the state exported from a well-formed machine, restored later under the same program and
parameters, is that machine again (45_snapshot_and_host.md section 4). -/
def Obligations.ExportThenRestore : Prop :=
  ∀ s u : State, s.Inv → u.program = s.program → u.params = s.params →
    hostCall (.exportState) s = (s, .exported (exportState s)) ∧
    hostCall (.restoreState (exportState s)) u = (s, .done)

/-- A refused call changes nothing, a well-formed machine refuses only ill-formed programs and ill-formed states, and
a parse failure is a normal result (R234). -/
def Obligations.RefusalsChangeNothing : Prop :=
  (∀ (c : HostCall) (s : State) (r : Refusal), (hostCall c s).2 = .refused r → (hostCall c s).1 = s) ∧
  (∀ (c : HostCall) (s : State) (r : Refusal), s.Inv → (hostCall c s).2 = .refused r →
    (r = .illFormedProgram ∧ ((∃ l, c = .loadProgram l) ∨ ∃ text, c = .loadProgramFromSource text)) ∨
      (r = .illFormedState ∧ ∃ e, c = .restoreState e)) ∧
  (∀ (text : String) (s : State), (parse text).errors ≠ [] →
    (hostCall (.loadProgramFromSource text) s).2 = .parsed (parse text))

/-- Derived statistics of every snapshot (R33): exact rationals, not stored. -/
def Obligations.DerivedStatistics : Prop :=
  ∀ s : State,
    (0 < s.stats.instructionsCompleted →
      (snapshot s).cpi * s.stats.instructionsCompleted = s.stats.cycleCount) ∧
    (s.stats.instructionsCompleted = 0 → (snapshot s).cpi = s.stats.cycleCount) ∧
    (0 < s.stats.branchCount →
      (snapshot s).branchAccuracy * s.stats.branchCount =
        ((s.stats.branchCount : Rat) - s.stats.branchMispredictions) * 100) ∧
    (s.stats.branchCount = 0 → (snapshot s).branchAccuracy = 100)

/-- The snapshot after a step (45_snapshot_and_host.md section 3): every field of R225, the derived statistics of R231
included (`DerivedStatistics`, O58, says the same of every snapshot), the five stage views (IF shows what was
presented, the other four what they consumed), and their annotations in a step that stalls, one that flushes, and one
that does neither. No step of a well-formed machine does both (`StallAndFlushExclusive`). -/
def Obligations.SnapshotShowsTheStep : Prop :=
  ∀ s t : State, s.halted = false → step s = .next t →
    (snapshot t).stages.map (·.stage) = [.fetch, .decode, .execute, .memory, .writeBack] ∧
    (snapshot t).stages.map (·.text) =
      [t.fetchInstr.map (·.text), s.ifid.map (·.instr.text), s.idex.map (·.instr.text), s.exmem.map (·.instr.text),
        s.memwb.map (·.instr.text)] ∧
    (snapshot t).cycle = s.stats.cycleCount + 1 ∧ (snapshot t).halted = t.halted ∧ (snapshot t).registers = t.x ∧
    (snapshot t).memory.length = s.params.memWords ∧
    (∀ k, k < s.params.memWords → (snapshot t).memory[k]? = some (loadWord t.mem k)) ∧
    (snapshot t).stats = t.stats ∧
    (snapshot t).cpi =
      (if 0 < t.stats.instructionsCompleted then (t.stats.cycleCount : Rat) / t.stats.instructionsCompleted
        else t.stats.cycleCount) ∧
    (snapshot t).branchAccuracy =
      (if 0 < t.stats.branchCount then
        ((t.stats.branchCount : Rat) - t.stats.branchMispredictions) / t.stats.branchCount * 100
      else 100) ∧
    (snapshot t).stalled = t.last.stalled ∧ (snapshot t).flushed = t.last.flushed ∧
    (snapshot t).forwards = t.last.forwards ∧ (snapshot t).events = t.last.events ∧
    (t.last.stalled = true → t.last.flushed = false →
      (snapshot t).stages.map (·.annotations) =
        [[.stall], [.stall],
          if t.last.forwards = [] then [] else [.forward (t.last.forwards.map fun f => (f.slot, f.source))], [], []]) ∧
    (t.last.flushed = true → t.last.stalled = false →
      (snapshot t).stages.map (·.annotations) =
        [[.flush], [.flush],
          (if t.last.forwards = [] then [] else [.forward (t.last.forwards.map fun f => (f.slot, f.source))]) ++
            [.branchTaken], [], []]) ∧
    (t.last.stalled = false → t.last.flushed = false →
      (snapshot t).stages.map (·.annotations) =
        [[], [],
          if t.last.forwards = [] then [] else [.forward (t.last.forwards.map fun f => (f.slot, f.source))], [], []])
end

