-- ==== Sys2Proof/Laws/Fetch.lean ====
section
/-! SUPPORT. What Fetch gives in a well-addressed program (spec/20_memory.md R68, spec/30_encoding.md R82). -/

namespace Sys2Proof.Machine

/-- Element `k` of a list whose first record has number `i` has address `4*(i+k)`. -/
theorem addressedFrom_get {p : List Record} {i k : Nat} {r : Record} (h : addressedFrom i p = true)
    (hk : p[k]? = some r) : r.pc = 4 * ((i + k : Nat) : Int) := by
  induction p generalizing i k with
  | nil => cases hk
  | cons a rest ih =>
    simp only [addressedFrom, Bool.and_eq_true, beq_iff_eq] at h
    cases k with
    | zero => simp only [List.getElem?_cons_zero, Option.some.injEq] at hk; subst hk; simpa using h.1
    | succ k =>
      rw [ih h.2 (by simpa using hk)]
      congr 2
      omega

/-- A fetched record stands in a slot of the program and has that slot's address. -/
theorem fetch_slot {p : List Record} (h : programAddressed p = true) {a : Int} {r : Record}
    (hf : fetch p a = some r) : 0 ≤ a ∧ ∃ k : Nat, a / 4 = k ∧ r.pc = 4 * (k : Int) := by
  unfold fetch at hf
  split at hf
  · next h0 => exact ⟨h0, (a / 4).toNat, by omega, by simpa using addressedFrom_get (i := 0) h hf⟩
  · cases hf

/-- At a multiple of 4 the fetched record has the address it was fetched from. -/
theorem fetch_pc_eq {p : List Record} (h : programAddressed p = true) {a : Int} {r : Record} (ha : a % 4 = 0)
    (hf : fetch p a = some r) : r.pc = a := by
  obtain ⟨h0, k, hk, hr⟩ := fetch_slot h hf
  omega

theorem heldAt_iff {p : List Record} {r : Record} {a : Int} :
    heldAt p r a = true ↔ fetch p r.pc = some r ∧ a = r.pc := by simp [heldAt]

/-- A record fetched at a multiple of 4 is held at that address. -/
theorem heldAt_of_fetch {p : List Record} (h : programAddressed p = true) {a : Int} {r : Record} (ha : a % 4 = 0)
    (hf : fetch p a = some r) : heldAt p r a = true := by
  have hr := fetch_pc_eq h ha hf
  rw [heldAt_iff, hr]
  exact ⟨hf, rfl⟩

end Sys2Proof.Machine
end

