-- ==== Sys2Proof/Laws/Invariant.lean ====
section
/-! SUPPORT. The well-formed state of spec/10_state.md R44 as propositions, part by part. -/

namespace Sys2Proof.Machine

theorem idexAgrees_iff {p : List Record} {d : IdEx} :
    idexAgrees p d = true ↔
      heldAt p d.instr d.addr = true ∧ d.ctrl = ctrlOf d.instr.instr ∧ d.dest = destOf d.instr.instr ∧
        d.imm = immOf d.instr.instr ∧ d.target = targetOf d.instr := by
  simp [idexAgrees, and_assoc]

theorem exmemAgrees_iff {p : List Record} {e : ExMem} :
    exmemAgrees p e = true ↔
      heldAt p e.instr e.addr = true ∧ e.ctrl = ctrlOf e.instr.instr ∧ e.dest = destOf e.instr.instr := by
  simp [exmemAgrees, and_assoc]

theorem memwbAgrees_iff {p : List Record} {w : MemWb} :
    memwbAgrees p w = true ↔
      heldAt p w.instr w.addr = true ∧ w.ctrl = ctrlOf w.instr.instr ∧ w.dest = destOf w.instr.instr := by
  simp [memwbAgrees, and_assoc]

theorem wellFormed_iff (s : State) :
    s.wellFormed = true ↔
      s.pc % 4 = 0 ∧ readReg s.x 0 = 0 ∧ Memory.wf s.params.memWords s.mem ∧
      (∀ f, s.ifid = some f → ifidAgrees s.program f = true) ∧
      (∀ d, s.idex = some d → idexAgrees s.program d = true) ∧
      (∀ e, s.exmem = some e → exmemAgrees s.program e = true) ∧
      (∀ w, s.memwb = some w → memwbAgrees s.program w = true) ∧
      (s.halted = true → haltTest s.ifid s.idex s.exmem s.memwb s.pc s.program = true) := by
  have hall : ∀ {α : Type} (o : Option α) (f : α → Bool), o.all f = true ↔ ∀ a, o = some a → f a = true := by
    intro α o f
    cases o <;> simp
  have hhalt : ∀ a b : Bool, (!a || b) = true ↔ (a = true → b = true) := by decide
  simp only [State.wellFormed, Bool.and_eq_true, decide_eq_true_eq, and_assoc, hall, hhalt]

/-- A load is no branch, so the instruction that stalls ID never redirects the pc (spec/30_encoding.md R89). -/
theorem isBranch_of_memRead (i : Instr) (h : (ctrlOf i).memRead = true) : (ctrlOf i).isBranch = false := by
  cases i <;> first | rfl | cases h

/-- The result of an instruction comes from memory exactly if it reads memory (spec/30_encoding.md R89). -/
theorem memToReg_eq_memRead (i : Instr) : (ctrlOf i).memToReg = (ctrlOf i).memRead := by cases i <;> rfl

end Sys2Proof.Machine
end

