-- ==== Sys2Proof/Laws/Memory.lean ====
section
/-! SUPPORT. Data memory: reads after writes, and the canonical form that every memory operation keeps
(spec/20_memory.md R62 to R65). -/

namespace Sys2Proof.Machine

theorem loadWord_of_not_listed {m : Memory} {k : Nat} (h : ∀ c ∈ m, c.1 ≠ k) : loadWord m k = 0 := by
  induction m with
  | nil => rfl
  | cons c rest ih =>
    have hc : ¬ k = c.1 := fun e => h c (by simp) e.symm
    rw [loadWord, if_neg hc]
    exact ih fun d hd => h d (by simp [hd])

theorem loadWord_consWord (k : Nat) (v : Word) (m : Memory) (j : Nat) (h : v = 0 → j = k → loadWord m k = 0) :
    loadWord (consWord k v m) j = if j = k then v else loadWord m j := by
  unfold consWord
  split
  · next hv =>
    split
    · next hj => rw [hj, hv, h hv hj]
    · rfl
  · rfl

theorem loadWord_storeWord {words : Nat} {m : Memory} (hm : Memory.wf words m) (k : Nat) (v : Word) (j : Nat) :
    loadWord (storeWord m k v) j = if j = k then v else loadWord m j := by
  induction m with
  | nil => exact loadWord_consWord k v [] j fun _ _ => rfl
  | cons c rest ih =>
    obtain ⟨hs, hb⟩ := hm
    rw [List.pairwise_cons] at hs
    have hrest : Memory.wf words rest := ⟨hs.2, fun d hd => hb d (by simp [hd])⟩
    rw [storeWord]
    split
    · next hlt =>
      refine loadWord_consWord k v (c :: rest) j fun _ _ => loadWord_of_not_listed fun d hd => ?_
      rcases List.mem_cons.mp hd with rfl | hd
      · omega
      · have := hs.1 d hd; omega
    · next hge =>
      split
      · next heq =>
        rw [loadWord_consWord k v rest j fun _ _ => loadWord_of_not_listed fun d hd => by
          have := hs.1 d hd; omega]
        split
        · rfl
        · next hj => rw [loadWord, if_neg (by omega)]
      · next hne =>
        rw [loadWord, loadWord, ih hrest]
        split
        · next hjc => rw [if_neg (by omega)]
        · rfl

theorem mem_storeWord {m : Memory} {k : Nat} {v : Word} {c : Nat × Word} (h : c ∈ storeWord m k v) :
    c ∈ m ∨ (c = (k, v) ∧ v ≠ 0) := by
  have hcons : ∀ {n : Memory}, c ∈ consWord k v n → c ∈ n ∨ (c = (k, v) ∧ v ≠ 0) := by
    intro n hn
    unfold consWord at hn
    split at hn
    · exact .inl hn
    · next hv =>
      rcases List.mem_cons.mp hn with h | h
      · exact .inr ⟨h, hv⟩
      · exact .inl h
  induction m with
  | nil => exact hcons h
  | cons d rest ih =>
    rw [storeWord] at h
    split at h
    · exact hcons h
    · split at h
      · rcases hcons h with h | h
        · exact .inl (by simp [h])
        · exact .inr h
      · rcases List.mem_cons.mp h with h | h
        · exact .inl (by simp [h])
        · rcases ih h with h | h
          · exact .inl (by simp [h])
          · exact .inr h

theorem storeWord_wf {words : Nat} {m : Memory} (hm : Memory.wf words m) {k : Nat} (hk : k < words) (v : Word) :
    Memory.wf words (storeWord m k v) := by
  refine ⟨?_, fun c hc => ?_⟩
  · have hcons : ∀ {n : Memory}, n.Pairwise (fun a b => a.1 < b.1) → (∀ c ∈ n, k < c.1) →
        (consWord k v n).Pairwise (fun a b => a.1 < b.1) := by
      intro n hn hk
      unfold consWord
      split
      · exact hn
      · exact List.pairwise_cons.mpr ⟨hk, hn⟩
    induction m with
    | nil => exact hcons List.Pairwise.nil (by simp)
    | cons c rest ih =>
      obtain ⟨hs, hb⟩ := hm
      have hs' := List.pairwise_cons.mp hs
      have hrest : Memory.wf words rest := ⟨hs'.2, fun d hd => hb d (by simp [hd])⟩
      rw [storeWord]
      split
      · next hlt =>
        refine hcons hs fun d hd => ?_
        rcases List.mem_cons.mp hd with rfl | hd
        · exact hlt
        · have := hs'.1 d hd; omega
      · split
        · next heq => exact hcons hs'.2 fun d hd => by have := hs'.1 d hd; omega
        · next hge hne =>
          refine List.pairwise_cons.mpr ⟨fun d hd => ?_, ih hrest⟩
          rcases mem_storeWord hd with hd | ⟨rfl, -⟩
          · exact hs'.1 d hd
          · show c.1 < k; omega
  · rcases mem_storeWord hc with hc | ⟨rfl, hv⟩
    · exact hm.2 c hc
    · exact ⟨hk, hv⟩

theorem boundedIndex_lt {words : Nat} {v : Int} {k : Nat} (h : boundedIndex words v = some k) : k < words := by
  unfold boundedIndex at h
  split at h
  · cases h; omega
  · cases h

theorem wordIndex_lt {p : Params} {a : Word} {k : Nat} (h : wordIndex p a = some k) : k < p.memWords := by
  unfold wordIndex at h
  split at h
  · exact boundedIndex_lt h
  · split at h
    · exact boundedIndex_lt h
    · cases h

theorem memWrite_wf {p : Params} {m : Memory} (hm : Memory.wf p.memWords m) (a v : Word) :
    Memory.wf p.memWords (memWrite p m a v) := by
  unfold memWrite
  split
  · next k hk => exact storeWord_wf hm (wordIndex_lt hk) v
  · exact hm

theorem memory_nil_wf (words : Nat) : Memory.wf words [] := ⟨List.Pairwise.nil, by simp⟩

end Sys2Proof.Machine
end

