-- ==== Sys2Proof/Laws/PerInstr.lean ====
section
/-! SUPPORT. The per-instruction family `RawRoundTrip`: an instruction's record at its own position, spelled out
with its explicit optional fields (spec/30_encoding.md R81, R83), is accepted there and read back as itself. -/

namespace Sys2Proof.Laws.RawRoundTrip

open Sys2Proof.Machine

/-- The raw form of the instruction's record at position `k` loads as that record. -/
def Statement (i : Instr) : Prop :=
  ∀ (k : Nat) (text : String),
    recordAt k (rawOf { instr := i, text := text, pc := 4 * (k : Int) }) =
      some { instr := i, text := text, pc := 4 * (k : Int) }

theorem immField_toInt (v : Word) : immField (some v.toInt) = some v := by simp [immField, wrap32]

theorem toInt_inInt32 (v : Word) : InInt32 v.toInt := by
  have h1 := BitVec.le_toInt v
  have h2 := BitVec.toInt_lt (x := v)
  constructor <;> omega

theorem holds (i : Instr) : Statement i := by
  intro k text
  cases i with
  | lw _ _ imm =>
    have h := toInt_inInt32 imm
    simp [recordAt, rawOf, RawRecord.wellFormedAt, RawRecord.fieldsMatchFormat, RawRecord.registersInRange,
      RawRecord.immediateInRange, RawRecord.targetAgrees, opOf, rdOf, rsOf, rtOf, immOf, targetOf, instrOfRaw,
      immField_toInt, regField, h.1, h.2]
  | sw _ _ imm =>
    have h := toInt_inInt32 imm
    simp [recordAt, rawOf, RawRecord.wellFormedAt, RawRecord.fieldsMatchFormat, RawRecord.registersInRange,
      RawRecord.immediateInRange, RawRecord.targetAgrees, opOf, rdOf, rsOf, rtOf, immOf, targetOf, instrOfRaw,
      immField_toInt, regField, h.1, h.2]
  | beq _ _ imm =>
    have h := toInt_inInt32 imm
    simp [recordAt, rawOf, RawRecord.wellFormedAt, RawRecord.fieldsMatchFormat, RawRecord.registersInRange,
      RawRecord.immediateInRange, RawRecord.targetAgrees, opOf, rdOf, rsOf, rtOf, immOf, targetOf, branchTarget,
      instrOfRaw, immField_toInt, regField, h.1, h.2]
  | _ =>
    simp [recordAt, rawOf, RawRecord.wellFormedAt, RawRecord.fieldsMatchFormat, RawRecord.registersInRange,
      RawRecord.immediateInRange, RawRecord.targetAgrees, opOf, rdOf, rsOf, rtOf, immOf, targetOf, instrOfRaw,
      regField, immField]

theorem add (rd rs rt : Reg) : Statement (.add rd rs rt) := holds _

theorem sub (rd rs rt : Reg) : Statement (.sub rd rs rt) := holds _

theorem and (rd rs rt : Reg) : Statement (.and rd rs rt) := holds _

theorem or (rd rs rt : Reg) : Statement (.or rd rs rt) := holds _

theorem lw (rt rs : Reg) (imm : Word) : Statement (.lw rt rs imm) := holds _

theorem sw (rt rs : Reg) (imm : Word) : Statement (.sw rt rs imm) := holds _

theorem beq (rs rt : Reg) (imm : Word) : Statement (.beq rs rt imm) := holds _

theorem nop : Statement .nop := holds _

end Sys2Proof.Laws.RawRoundTrip
end

