-- ==== Sys2Proof/Laws/Registers.lean ====
section
/-! SUPPORT. Register reads after register writes (spec/10_state.md R23, R24). -/

namespace Sys2Proof.Machine

theorem writeReg_zero (x : Regs) (v : Word) : writeReg x 0 v = x := by simp [writeReg]

theorem readReg_writeReg_same (x : Regs) {i : Reg} (h : i ≠ 0) (v : Word) : readReg (writeReg x i v) i = v := by
  simp [readReg, writeReg, h]

theorem readReg_writeReg_other (x : Regs) {i j : Reg} (h : j ≠ i) (v : Word) :
    readReg (writeReg x i v) j = readReg x j := by
  have : (i : Nat) ≠ j := fun e => h (Fin.ext e.symm)
  unfold readReg writeReg
  split
  · rfl
  · simp [this]

theorem readReg_writeReg_zero (x : Regs) (i : Reg) (v : Word) : readReg (writeReg x i v) 0 = readReg x 0 := by
  by_cases h : i = 0
  · rw [h, writeReg_zero]
  · exact readReg_writeReg_other x (Ne.symm h) v

theorem readReg_writeDest_zero (x : Regs) (d : Option Reg) (v : Word) :
    readReg (writeDest x d v) 0 = readReg x 0 := by
  cases d with
  | none => rfl
  | some d => exact readReg_writeReg_zero x d v

end Sys2Proof.Machine
end

