-- ==== Sys2Proof/Laws/State.lean ====
section
/-! SUPPORT. One lemma per field per update of State: the clocked state, the fresh state, an installed state, and
a state with an instruction placed at its pc. -/

namespace Sys2Proof.Machine

section Clocked
variable (v : Option Record) (s : State)

@[simp] theorem clocked_params : (clocked v s).params = s.params := rfl
@[simp] theorem clocked_program : (clocked v s).program = s.program := rfl
@[simp] theorem clocked_pc : (clocked v s).pc = newPc s := rfl
@[simp] theorem clocked_x : (clocked v s).x = wbRegs s := rfl
@[simp] theorem clocked_mem : (clocked v s).mem = memAfter s := rfl
@[simp] theorem clocked_halted :
    (clocked v s).halted =
      haltTest (newIfId v s) (newIdEx s) (newExMem s) (newMemWb s) (newPc s) s.program := rfl
@[simp] theorem clocked_stats : (clocked v s).stats = newStats s := rfl
@[simp] theorem clocked_ifid : (clocked v s).ifid = newIfId v s := rfl
@[simp] theorem clocked_idex : (clocked v s).idex = newIdEx s := rfl
@[simp] theorem clocked_exmem : (clocked v s).exmem = newExMem s := rfl
@[simp] theorem clocked_memwb : (clocked v s).memwb = newMemWb s := rfl
@[simp] theorem clocked_fetchInstr : (clocked v s).fetchInstr = fetched v s := rfl
@[simp] theorem clocked_last : (clocked v s).last = newLast v s := rfl

end Clocked

section Fresh
variable (p : Params) (program : List Record)

@[simp] theorem fresh_params : (State.fresh p program).params = p := rfl
@[simp] theorem fresh_program : (State.fresh p program).program = program := rfl
@[simp] theorem fresh_pc : (State.fresh p program).pc = 0 := rfl
@[simp] theorem fresh_x : (State.fresh p program).x = Vector.replicate 32 0 := rfl
@[simp] theorem fresh_mem : (State.fresh p program).mem = [] := rfl
@[simp] theorem fresh_halted : (State.fresh p program).halted = false := rfl
@[simp] theorem fresh_stats : (State.fresh p program).stats = Stats.reset := rfl
@[simp] theorem fresh_ifid : (State.fresh p program).ifid = none := rfl
@[simp] theorem fresh_idex : (State.fresh p program).idex = none := rfl
@[simp] theorem fresh_exmem : (State.fresh p program).exmem = none := rfl
@[simp] theorem fresh_memwb : (State.fresh p program).memwb = none := rfl
@[simp] theorem fresh_fetchInstr : (State.fresh p program).fetchInstr = none := rfl
@[simp] theorem fresh_last : (State.fresh p program).last = LastStep.reset := rfl

end Fresh

section Installed
variable (e : EngineState) (s : State)

@[simp] theorem installed_params : (installed e s).params = s.params := rfl
@[simp] theorem installed_program : (installed e s).program = s.program := rfl
@[simp] theorem installed_pc : (installed e s).pc = e.pc := rfl
@[simp] theorem installed_x : (installed e s).x = e.x := rfl
@[simp] theorem installed_mem : (installed e s).mem = e.mem := rfl
@[simp] theorem installed_halted : (installed e s).halted = e.halted := rfl
@[simp] theorem installed_stats : (installed e s).stats = e.stats := rfl
@[simp] theorem installed_ifid : (installed e s).ifid = e.ifid := rfl
@[simp] theorem installed_idex : (installed e s).idex = e.idex := rfl
@[simp] theorem installed_exmem : (installed e s).exmem = e.exmem := rfl
@[simp] theorem installed_memwb : (installed e s).memwb = e.memwb := rfl
@[simp] theorem installed_fetchInstr : (installed e s).fetchInstr = e.fetchInstr := rfl
@[simp] theorem installed_last : (installed e s).last = e.last := rfl

end Installed

section Placed
variable (i : Instr) (s : State)

@[simp] theorem placeInstr_params : (placeInstr i s).params = s.params := rfl
@[simp] theorem placeInstr_program : (placeInstr i s).program = programWith s.program (pcSlot s) i := rfl
@[simp] theorem placeInstr_pc : (placeInstr i s).pc = 4 * (pcSlot s : Int) := rfl
@[simp] theorem placeInstr_x : (placeInstr i s).x = s.x := rfl
@[simp] theorem placeInstr_mem : (placeInstr i s).mem = s.mem := rfl
@[simp] theorem placeInstr_halted : (placeInstr i s).halted = false := rfl
@[simp] theorem placeInstr_stats : (placeInstr i s).stats = s.stats := rfl
@[simp] theorem placeInstr_ifid : (placeInstr i s).ifid = s.ifid := rfl
@[simp] theorem placeInstr_exmem : (placeInstr i s).exmem = s.exmem := rfl
@[simp] theorem placeInstr_memwb : (placeInstr i s).memwb = s.memwb := rfl
@[simp] theorem placeInstr_fetchInstr : (placeInstr i s).fetchInstr = s.fetchInstr := rfl
@[simp] theorem placeInstr_last : (placeInstr i s).last = s.last := rfl

end Placed

end Sys2Proof.Machine
end

