-- ==== Sys2Proof/Laws/Stages.lean ====
section
/-! SUPPORT. What each stage function of an edge can answer, said once (spec/40_pipeline.md R134 to R150). -/

namespace Sys2Proof.Machine

/-- WB never changes register 0 (spec/10_state.md R23). -/
theorem wbRegs_zero (s : State) : readReg (wbRegs s) 0 = readReg s.x 0 := by
  unfold wbRegs
  split
  · split
    · exact readReg_writeDest_zero _ _ _
    · rfl
  · rfl

/-- MEM keeps the canonical form of data memory. -/
theorem memAfter_wf {s : State} (h : Memory.wf s.params.memWords s.mem) :
    Memory.wf s.params.memWords (memAfter s) := by
  unfold memAfter
  split
  · split
    · exact memWrite_wf h _ _
    · exact h
  · exact h

/-- What the load-use check finds (R144). -/
theorem loadUse_iff (s : State) (r : Reg) (load held : Record) :
    loadUse s = some (r, load, held) ↔
      ∃ f d, s.ifid = some f ∧ s.idex = some d ∧ d.ctrl.memRead = true ∧ d.dest = some r ∧ r ≠ 0 ∧
        readsReg f.instr.instr r = true ∧ load = d.instr ∧ held = f.instr := by
  unfold loadUse
  split
  · next f d hf hd =>
    simp only [hf, hd]
    split
    · next r' hr =>
      constructor
      · intro h
        split at h
        · next hc =>
          simp only [Bool.and_eq_true, bne_iff_ne] at hc
          simp only [Option.some.injEq, Prod.mk.injEq] at h
          obtain ⟨rfl, rfl, rfl⟩ := h
          exact ⟨f, d, rfl, rfl, hc.1.1, hr, hc.1.2, hc.2, rfl, rfl⟩
        · cases h
      · rintro ⟨f', d', h1, h2, h3, h4, h5, h6, rfl, rfl⟩
        simp only [Option.some.injEq] at h1 h2
        subst h1 h2
        rw [hr] at h4
        simp only [Option.some.injEq] at h4
        subst h4
        simp [h3, h5, h6]
    · next hn =>
      constructor
      · intro h; cases h
      · rintro ⟨f', d', h1, h2, h3, h4, -⟩
        simp only [Option.some.injEq] at h2
        subst h2
        rw [hn] at h4
        cases h4
  · next hn =>
    constructor
    · intro h; cases h
    · rintro ⟨f, d, h1, h2, -⟩
      exact (hn f d h1 h2).elim

/-- A filled ID/EX latch after an edge is the decoding of the instruction in IF/ID, with no stall and no taken
branch (R146, R150). -/
theorem newIdEx_some {s : State} {d : IdEx} (h : newIdEx s = some d) :
    branchTaken s = false ∧ stalls s = false ∧ ∃ f, s.ifid = some f ∧ d = decoded (wbRegs s) f := by
  unfold newIdEx builtIdEx at h
  split at h
  · cases h
  · split at h
    · cases h
    · next h1 h2 =>
      refine ⟨by simpa using h1, by simpa using h2, ?_⟩
      cases hf : s.ifid with
      | none => simp [hf] at h
      | some f => exact ⟨f, rfl, by simpa [hf] using h.symm⟩

/-- The branch in EX as the latch's control signals and operands give it (R142). -/
theorem branchTaken_of_idex {s : State} {d : IdEx} (h : s.idex = some d) :
    branchTaken s = (d.ctrl.isBranch && branchCondition (opA s d) (opB s d)) := by
  simp [branchTaken, h, branchTakenIn]

/-- Without a taken branch nothing redirects the pc (R150). -/
theorem redirect_of_not_taken {s : State} (h : branchTaken s = false) : redirect s = none := by
  unfold redirect
  unfold branchTaken at h
  cases hx : s.idex with
  | none => rfl
  | some d => simp only [hx] at h; simp [h]

theorem newPc_of_not_taken {s : State} (h : branchTaken s = false) : newPc s = pcCandidate s := by
  rw [newPc, redirect_of_not_taken h]

/-- One slot adds at most one forward record, of that slot and never of register 0 (R137, R139). -/
theorem forwardsOf_cases (exmem : Option ExMem) (memwb : Option MemWb) (sl : Slot) (slot : Option Reg) :
    forwardsOf exmem memwb sl slot = [] ∨
      ∃ f, forwardsOf exmem memwb sl slot = [f] ∧ f.slot = sl ∧ slot = some f.reg ∧ f.reg ≠ 0 := by
  unfold forwardsOf
  split
  · exact .inl rfl
  · next r =>
    split
    · next h =>
      refine .inr ⟨_, rfl, rfl, rfl, ?_⟩
      rintro rfl
      simp [forwardOf] at h
    · exact .inl rfl

/-! The sequential view across an edge -/

theorem wbRegs_clocked (v : Option Record) (s : State) : wbRegs (clocked v s) = regsBehindEx s := rfl

theorem regsBehindEx_clocked_bubble (v : Option Record) {s : State} (h : s.idex = none) :
    regsBehindEx (clocked v s) = regsBehindEx s := by
  have hm : newMemWb (clocked v s) = none := by simp [newMemWb, newExMem, h]
  rw [regsBehindEx, hm]
  rfl

theorem regsBehindEx_clocked (v : Option Record) {s : State} {d : IdEx} (h : s.idex = some d) :
    regsBehindEx (clocked v s) =
      if d.ctrl.regWrite = true then
        writeDest (regsBehindEx s) d.dest
          (if d.ctrl.memToReg = true then
            (if d.ctrl.memRead = true then memRead s.params (memAfter s) (aluOut s d) else 0)
          else aluOut s d)
      else regsBehindEx s := by
  have hm : newMemWb (clocked v s) =
      some { instr := d.instr, addr := d.addr
             writeData :=
               if d.ctrl.memToReg then
                 (if d.ctrl.memRead then memRead s.params (memAfter s) (aluOut s d) else 0)
               else aluOut s d
             dest := d.dest, ctrl := d.ctrl } := by simp [newMemWb, newExMem, h, loadedWord]
  rw [regsBehindEx, hm]
  rfl

theorem memAfter_clocked_bubble (v : Option Record) {s : State} (h : s.idex = none) :
    memAfter (clocked v s) = memAfter s := by simp only [memAfter, clocked_exmem, newExMem, h, clocked_mem]

theorem memAfter_clocked (v : Option Record) {s : State} {d : IdEx} (h : s.idex = some d) :
    memAfter (clocked v s) =
      if d.ctrl.memWrite = true then memWrite s.params (memAfter s) (aluOut s d) (opB s d) else memAfter s := by
  rw [memAfter, clocked_exmem, newExMem, h]
  rfl

/-- The instruction in EX completed, whatever pc is put beside it. -/
theorem behindId_withPc {s : State} {d : IdEx} (h : s.idex = some d) (p : Int) :
    ({ behindId s with pc := p } : Arch) =
      { completeFrom s.params d.instr d.addr (behindEx s) with pc := p } := by
  unfold behindId
  rw [h]
  simp only
  split <;> rfl

theorem behindId_pc_of_not_taken {s : State} (h : branchTaken s = false) : (behindId s).pc = s.pc := by
  unfold behindId
  split
  · simp [h]
  · rfl

end Sys2Proof.Machine
end

