-- ==== Sys2Proof/Laws/Step.lean ====
section
/-! SUPPORT. What an edge, an instruction's step and a step can do, said once: the later proofs cite these and
unfold nothing of the dispatch. -/

namespace Sys2Proof.Machine

/-- Every arm of the dispatch is the clock edge with its instruction at the pc. -/
theorem exec_eq_clock (i : Instr) (s : State) : exec i s = clock i s := by cases i <;> rfl

/-- The record at the pc is what its instruction presents. -/
theorem presented_of_fetch {s : State} {r : Record} (h : fetch s.program s.pc = some r) :
    presented r.instr s = r := by simp [presented, h]

/-- A step is the edge with what Fetch gives. -/
theorem step_eq_edge (s : State) : step s = edge (fetch s.program s.pc) s := by
  unfold step
  split
  · next r h => rw [exec_eq_clock, clock, presented_of_fetch h, h]
  · next h => rw [h]

/-- An edge answers a next state in one of two ways. -/
theorem edge_cases {v : Option Record} {s t : State} (h : edge v s = .next t) :
    (s.halted = true ∧ t = s) ∨ (s.halted = false ∧ s.idex.all latchComplete = true ∧ t = clocked v s) := by
  unfold edge at h
  split at h
  · next hh => cases h; exact .inl ⟨hh, rfl⟩
  · next hh =>
    split at h
    · next hc => cases h; exact .inr ⟨by simpa using hh, hc, rfl⟩
    · cases h

/-- An edge of a machine that runs, on a complete latch, is the clocked state. -/
theorem edge_next {v : Option Record} {s : State} (hh : s.halted = false) (hc : s.idex.all latchComplete = true) :
    edge v s = .next (clocked v s) := by simp [edge, hh, hc]

/-- An edge of a halted machine changes nothing (R131). -/
theorem edge_halted {v : Option Record} {s : State} (hh : s.halted = true) : edge v s = .next s := by
  simp [edge, hh]

/-- A step answers a next state in one of two ways: nothing on a halted machine, else the clocked state. -/
theorem step_cases {s t : State} (h : step s = .next t) :
    (s.halted = true ∧ t = s) ∨
      (s.halted = false ∧ s.idex.all latchComplete = true ∧ t = clocked (fetch s.program s.pc) s) := by
  rw [step_eq_edge] at h
  exact edge_cases h

/-- What decode builds is complete: the control table asks for an immediate or a target only where there is one
(spec/30_encoding.md R83, R89). -/
theorem latchComplete_decoded (x : Regs) (f : IfId) : latchComplete (decoded x f) = true := by
  obtain ⟨⟨i, text, pc⟩, addr⟩ := f
  cases i <;> rfl

/-- The latch a clocked machine holds in ID/EX is complete. -/
theorem latchComplete_clocked (v : Option Record) (s : State) : (clocked v s).idex.all latchComplete = true := by
  rw [clocked_idex, newIdEx, builtIdEx]
  split
  · rfl
  · split
    · rfl
    · cases s.ifid with
      | none => rfl
      | some f => exact latchComplete_decoded (wbRegs s) f

/-- An ID/EX latch that agrees with the control table is complete. -/
theorem latchComplete_of_agrees {program : List Record} {d : IdEx} (h : idexAgrees program d = true) :
    latchComplete d = true := by
  obtain ⟨⟨i, text, pc⟩, addr, rsVal, rtVal, dest, imm, target, ctrl⟩ := d
  simp only [idexAgrees, Bool.and_eq_true, beq_iff_eq] at h
  obtain ⟨⟨⟨⟨-, hc⟩, -⟩, hi⟩, ht⟩ := h
  cases hc; cases hi; cases ht
  cases i <;> rfl

end Sys2Proof.Machine
end

