-- ==== Sys2Proof/Tests/Slice0.lean ====
section
/-! SUPPORT. Tests: ill-formed terms that each well-formedness check refuses; every constructor's word written out
from the spec's encoding of it; a few steps on small states with results from spec/95_test_vectors.md or worked out
by hand from the rules; and a witness for the hypotheses of every statement that has some. -/

namespace Sys2Proof.Tests

open Sys2Proof Sys2Proof.Machine

/-! Well-formedness: each check refuses a term that breaks it -/

/-- `ADD R1, R2, R3` at address 0, as a raw record. -/
def rawAdd : RawRecord :=
  { op := .add, rd := some 1, rs := some 2, rt := some 3, imm := none, target := none, text := "ADD", pc := 0 }

/-- `BEQ R1, R2, +2` at address 0, as a raw record. -/
def rawBeq : RawRecord :=
  { op := .beq, rd := none, rs := some 1, rt := some 2, imm := some 2, target := some 12, text := "BEQ", pc := 0 }

theorem test_raw_well_formed : rawAdd.wellFormedAt 0 = true ∧ rawBeq.wellFormedAt 0 = true := by decide
theorem test_raw_wrong_address : rawProgramWellFormed [{ rawAdd with pc := 4 }] = false := by decide
theorem test_raw_missing_field : ({ rawAdd with rd := none }).fieldsMatchFormat = false := by decide
theorem test_raw_extra_field : ({ rawAdd with imm := some 1 }).fieldsMatchFormat = false := by decide
theorem test_raw_register_32 : ({ rawAdd with rt := some 32 }).registersInRange = false := by decide
theorem test_raw_immediate_too_large :
    ({ rawBeq with imm := some 2147483648 }).immediateInRange = false := by decide
theorem test_raw_target_disagrees : ({ rawBeq with target := some 16 }).targetAgrees = false := by decide
theorem test_no_binary_form : (Instr.lw 1 2 32768#32).hasBinaryForm = false := by decide
theorem test_program_not_addressed : programAddressed [⟨.nop, "NOP", 4⟩] = false := by decide

/-! Decoding: words written out field by field (R115 to R118) -/

-- opcode rs rt rd shamt funct
theorem test_decode_add : decode 0b000000_00010_00011_00001_00000_100000#32 = .ok (.add 1 2 3) := by decide
theorem test_decode_sub : decode 0b000000_00001_00101_00100_00000_100010#32 = .ok (.sub 4 1 5) := by decide
theorem test_decode_and : decode 0b000000_00001_00100_00110_00000_100100#32 = .ok (.and 6 1 4) := by decide
theorem test_decode_or : decode 0b000000_11111_11110_11101_00000_100101#32 = .ok (.or 29 31 30) := by decide
-- opcode rs rt imm16
theorem test_decode_lw : decode 0b100011_00010_00001_1111111111111100#32 = .ok (.lw 1 2 (-4)) := by decide
theorem test_decode_sw : decode 0b101011_11111_11110_1000000000000000#32 = .ok (.sw 30 31 (-32768)) := by decide
theorem test_decode_beq : decode 0b000100_00001_00010_0000000000000010#32 = .ok (.beq 1 2 2) := by decide
theorem test_decode_nop : decode 0b00000000000000000000000000000000#32 = .ok .nop := by decide
-- 95_test_vectors.md L2.8
theorem test_reject_shamt : decode 0x00430860 = .error .nonzeroShamt := by decide
theorem test_reject_funct : decode 0x00430821 = .error .unknownFunct := by decide
theorem test_reject_opcode : decode 0x14220002 = .error .unknownOpcode := by decide
theorem test_add_zero_is_no_nop : decode 0x00000020 = .ok (.add 0 0 0) := by decide
theorem test_decodeAt_target :
    (decodeAt 12 0x1000FFFC).toOption.map targetOf = some (some 0) := by decide
theorem test_spelling : (Instr.lw 1 2 (-4)).spelling = "LW R1, -4(R2)" := by decide

/-! One step of each instruction on a small state -/

/-- The parameters of 95_test_vectors.md. -/
def p64 : Params := { memWords := 64, misalign := .truncate }

/-- A machine with R1 = 2147483647, R2 = 8, R3 = 3 and mem[2] = 77, whose program is `i` at address 0. -/
def machine (i : Instr) : State :=
  { State.fresh p64 [⟨i, "", 0⟩] with
    x := (((Vector.replicate 32 0).set 1 2147483647#32).set 2 8#32).set 3 3#32
    mem := [(2, 77)] }

/-- The machine with `i` in IF/ID and the pc behind it. -/
def inDecode (i : Instr) : State := { machine i with ifid := some ⟨⟨i, "", 0⟩, 0⟩, pc := 4 }

/-- The machine with `i` in ID/EX, its register values read. -/
def inExecute (i : Instr) : State :=
  { machine i with idex := some (decoded (machine i).x ⟨⟨i, "", 0⟩, 0⟩), pc := 8 }

/-- The machine with `i` in EX/MEM, the address and the data given. -/
def inMemory (i : Instr) (address data : Word) : State :=
  { machine i with
    exmem := some ⟨⟨i, "", 0⟩, 0, address, data, destOf i, ctrlOf i, false, none⟩
    pc := 12 }

/-- The machine with `i` in MEM/WB, the value given. -/
def inWriteBack (i : Instr) (value : Word) : State :=
  { machine i with memwb := some ⟨⟨i, "", 0⟩, 0, value, destOf i, ctrlOf i⟩, pc := 16 }

/-- A property of the next state. -/
def after (s : State) (q : State → Bool) : Bool :=
  match step s with
  | .next t => q t
  | .fault _ => false
  | .refused _ => false

/-- R181: 2147483647 + 3 wraps. -/
theorem test_add_wraps :
    after (inExecute (.add 4 1 3)) (fun t => t.exmem.any (fun e => e.aluResult == 0x80000002#32)) = true := by decide
/-- R23: the write to register 0 is discarded, and the instruction still counts. -/
theorem test_add_to_zero_discarded :
    after (inWriteBack (.add 0 1 3) 9)
      (fun t => readReg t.x 0 == 0 && t.stats.instructionsCompleted == 1) = true := by decide
/-- R182: 3 - 8 = -5. -/
theorem test_sub_order :
    after (inExecute (.sub 4 3 2)) (fun t => t.exmem.any (fun e => e.aluResult == -5)) = true := by decide
/-- R183: 0x7FFFFFFF AND 8 = 8. -/
theorem test_and : after (inExecute (.and 4 1 2)) (fun t => t.exmem.any (fun e => e.aluResult == 8)) = true := by decide
/-- R184: 8 OR 3 = 11. -/
theorem test_or : after (inExecute (.or 4 2 3)) (fun t => t.exmem.any (fun e => e.aluResult == 11)) = true := by decide
/-- R191: base 8, offset -4, and slot B absent, so store data 0. -/
theorem test_lw_address :
    after (inExecute (.lw 4 2 (-4)))
      (fun t => t.exmem.any (fun e => e.aluResult == 4 && e.storeData == 0)) = true := by decide
/-- R63, truncate: address 10 names word 2; the loaded word is the value to write back. -/
theorem test_lw_loads :
    after (inMemory (.lw 4 2 2) 10 0) (fun t => t.memwb.any (fun w => w.writeData == 77 && w.dest == some 4)) = true := by
  decide
/-- R192: word 3 is written, and word 2 stays. -/
theorem test_sw_stores :
    after (inMemory (.sw 3 2 4) 12 5) (fun t => t.mem == [(2, 77), (3, 5)]) = true := by decide
/-- R65: the store one past the last word is dropped. -/
theorem test_sw_dropped : after (inMemory (.sw 3 2 4) 256 5) (fun t => t.mem == [(2, 77)]) = true := by decide
/-- R201: `BEQ R2, R2, -3` at 0 goes to -8 and is counted twice. -/
theorem test_beq_taken :
    after (inExecute (.beq 2 2 (-3)))
      (fun t => t.pc == -8 && t.last.flushed && t.stats.branchCount == 1 && t.stats.branchMispredictions == 1) = true := by
  decide
/-- R201: not taken, nothing is flushed. -/
theorem test_beq_not_taken :
    after (inExecute (.beq 2 3 (-3)))
      (fun t => t.pc == 12 && !t.last.flushed && t.stats.branchCount == 1 && t.stats.branchMispredictions == 0) = true := by
  decide
/-- R211: NOP enters ID/EX as no bubble, with `isNop`. -/
theorem test_nop_is_no_bubble : after (inDecode .nop) (fun t => t.idex.any (fun d => d.ctrl.isNop)) = true := by decide
/-- R211: NOP counts as completed. -/
theorem test_nop_completes :
    after (inWriteBack .nop 0) (fun t => t.stats.instructionsCompleted == 1 && t.halted) = true := by decide
/-- R235: an empty program halts at the end of its first step, with pc 4. -/
theorem test_empty_program :
    after (State.fresh p64 []) (fun t => t.halted && t.pc == 4 && t.stats.cycleCount == 1) = true := by decide
/-- A table word runs as the first instruction after reset. -/
theorem test_word_runs_after_reset :
    after (State.reset.withFetchWord 32 0x00430820)
      (fun t => t.fetchInstr.any (fun r => decide (r.instr = .add 1 2 3))) = true := by decide

/-! The assembler and the host operations (95_test_vectors.md L2.7, L2.9) -/

theorem test_parse_memory_operand :
    (parse "lw R1, 0X1f ( r2 )").instructions.map (fun r => (r.op, r.rt, r.rs, r.imm)) =
      [(.lw, some 1, some 2, some 31)] := by decide
theorem test_parse_label :
    (parse "start:\n  NOP # c\nBEQ R0,R0,start").instructions.map (fun r => (r.pc, r.imm, r.target)) =
      [(0, none, none), (4, some (-2), some 0)] := by decide
theorem test_parse_errors :
    (parse "FOO\n\nADD R1,R2\n# only\nBEQ R1,R2,x").errors.map (fun e => (e.line, e.kind)) =
      [(1, .unknownOpcode), (3, .wrongOperandCount), (5, .unresolvedLabel)] := by decide
theorem test_load_refused :
    (hostCall (.loadProgram [{ rawAdd with pc := 4 }]) (State.fresh p64 [])).2 = .refused .illFormedProgram := by decide
theorem test_restore_refused :
    (hostCall (.restoreState { exportState (State.fresh p64 []) with x := (Vector.replicate 32 0).set 0 5#32 })
      (State.fresh p64 [])).2 = .refused .illFormedState := by decide

/-! Witnesses: for every statement with hypotheses, a concrete state and operands that meet them together -/

def rLw : Record := ⟨.lw 1 2 0, "LW R1, 0(R2)", 0⟩
def rAdd : Record := ⟨.add 3 1 4, "ADD R3, R1, R4", 4⟩
def rBeq : Record := ⟨.beq 3 3 (-1), "BEQ R3, R3, -1", 8⟩
def rSw : Record := ⟨.sw 3 2 4, "SW R3, 4(R2)", 12⟩
def rNop : Record := ⟨.nop, "NOP", 16⟩

/-- A program with a load and its consumer, a branch, a store and a NOP. -/
def demo : State :=
  { State.fresh p64 [rLw, rAdd, rBeq, rSw, rNop] with
    x := ((Vector.replicate 32 0).set 2 8#32).set 4 5#32
    mem := [(2, 77)] }

/-- LW in ID/EX, its consumer in IF/ID: the next step stalls. -/
def stallState : State :=
  { demo with pc := 8, ifid := some ⟨rAdd, 4⟩, idex := some (decoded demo.x ⟨rLw, 0⟩) }

/-- A taken BEQ in ID/EX, SW in IF/ID: the next step flushes. -/
def flushState : State :=
  { demo with pc := 16, ifid := some ⟨rSw, 12⟩, idex := some (decoded demo.x ⟨rBeq, 8⟩) }

/-- ADD in ID/EX with its first operand's load in MEM/WB: the next step forwards. -/
def forwardState : State :=
  { demo with
    pc := 12, ifid := some ⟨rBeq, 8⟩, idex := some (decoded demo.x ⟨rAdd, 4⟩)
    memwb := some ⟨rLw, 0, 77, some 1, ctrlLw⟩ }

/-- A store in EX/MEM, an ADD in MEM/WB. -/
def storeState : State :=
  { demo with
    pc := 20, exmem := some ⟨rSw, 12, 12, 5, none, ctrlSw, false, none⟩
    memwb := some ⟨rAdd, 4, 6, some 3, ctrlAlu .add⟩ }

/-- A halted machine. -/
def haltedState : State := { State.fresh p64 [] with pc := 4, halted := true }

/-- SW in IF/ID behind the first slots: the next fetch is on the path of execution. -/
def onPathState : State := { demo with pc := 16, ifid := some ⟨rSw, 12⟩, exmem := none }

theorem demo_inv : demo.Inv := ⟨by decide, by decide, by decide⟩
theorem stallState_inv : stallState.Inv := ⟨by decide, by decide, by decide⟩
theorem flushState_inv : flushState.Inv := ⟨by decide, by decide, by decide⟩
theorem forwardState_inv : forwardState.Inv := ⟨by decide, by decide, by decide⟩
theorem storeState_inv : storeState.Inv := ⟨by decide, by decide, by decide⟩
theorem haltedState_inv : haltedState.Inv := ⟨by decide, by decide, by decide⟩
theorem onPathState_inv : onPathState.Inv := ⟨by decide, by decide, by decide⟩

/-- Coherence of a state whose latches are given. -/
theorem coherent_of {s : State} (h₁ : noUnreadyLoad s = true)
    (h₂ : s.idex.all (fun d => operandAgrees s (slotA d.instr.instr) (opA s d) &&
      operandAgrees s (slotB d.instr.instr) (opB s d)) = true)
    (h₃ : s.ifid.all (fun f => decide (s.pc = f.addr + 4)) = true) : s.Coherent := by
  refine ⟨h₁, fun d hd => ?_, fun f hf => ?_⟩
  · simpa [hd] using h₂
  · simpa [hf] using h₃

theorem demo_coherent : demo.Coherent := coherent_of (by decide) (by decide) (by decide)
theorem stallState_coherent : stallState.Coherent := coherent_of (by decide) (by decide) (by decide)
theorem flushState_coherent : flushState.Coherent := coherent_of (by decide) (by decide) (by decide)
theorem forwardState_coherent : forwardState.Coherent := coherent_of (by decide) (by decide) (by decide)
theorem onPathState_coherent : onPathState.Coherent := coherent_of (by decide) (by decide) (by decide)

theorem witness_DecodeOfEncodeIsIdentity :
    (Instr.lw 31 0 (-32768)).hasBinaryForm = true ∧ (Instr.beq 0 31 32767).hasBinaryForm = true := by decide
theorem witness_EncodeOfDecodeIsIdentity : ∃ w i, decode w = .ok i := ⟨0xAFFF8000, .sw 31 31 (-32768), by decide⟩
theorem witness_EncodingRowsAreDisjoint :
    ∃ r ∈ encodingTable, r.covers 0x03FFF825 = true := ⟨encodingTable[3], by decide, by decide⟩
theorem witness_StepRunsTheFetchedInstruction :
    fetch demo.program demo.pc = some rLw ∧ fetch haltedState.program haltedState.pc = none := by decide
theorem witness_PlacedWordRunsNext :
    decodeTableWord 32 0x00430820 = some (.add 1 2 3) ∧ decodeTableWord 32 0 = some .nop := by decide
theorem witness_RegisterWritePrimitive :
    ((31 : Reg) ≠ 0 ∧ (1 : Reg) ≠ 0 ∧ (0 : Reg) ≠ 31) ∧ ∃ t, step storeState = .next t ∧ t.x ≠ storeState.x :=
  ⟨by decide, _, rfl, by decide⟩
theorem witness_RegisterZeroNeverChanges : ∃ t, step demo = .next t := ⟨_, rfl⟩
/-- One address for each clause of the index rule, at the ends of the range of 64 words, and a parameter in bounds. -/
theorem witness_WordIndexRule :
    (((252#32).toInt % 4 = 0 ∧ 0 ≤ (252#32).toInt ∧ (252#32).toInt / 4 < p64.memWords) ∧
      ((256#32).toInt % 4 = 0 ∧ (p64.memWords : Int) ≤ (256#32).toInt / 4) ∧
      ((255#32).toInt % 4 ≠ 0 ∧ p64.misalign = .truncate ∧ 0 ≤ (255#32).toInt ∧ (255#32).toInt / 4 < p64.memWords) ∧
      ((257#32).toInt % 4 ≠ 0 ∧ (p64.memWords : Int) ≤ (257#32).toInt / 4) ∧
      (({ p64 with misalign := .outOfRange } : Params).misalign = .outOfRange ∧ (1#32).toInt % 4 ≠ 0)) ∧
    (-4#32).toInt < 0 ∧ p64.InBounds ∧ ({ p64 with memWords := 2 ^ 29 } : Params).InBounds := by decide
theorem witness_MemoryReadAndWrite :
    Memory.wf p64.memWords [(2, 77#32)] ∧ wordIndex p64 252 = some 63 ∧ wordIndex p64 256 = none := by decide
theorem witness_FetchRule :
    (16 : Int) % 4 = 0 ∧ (16 : Int) = 4 * ((4 : Nat) : Int) ∧ (-4 : Int) % 4 = 0 ∧ (-4 : Int) < 0 ∧
      (20 : Int) % 4 = 0 ∧ 4 * (demo.program.length : Int) ≤ 20 := by decide
theorem witness_WriteBackStage :
    (demo.halted = false ∧ (∃ t, step demo = .next t) ∧ demo.memwb = none) ∧
    (storeState.halted = false ∧ (∃ t, step storeState = .next t) ∧
      ∃ w, storeState.memwb = some w ∧ w.ctrl.regWrite = true ∧ w.dest = some 3) ∧
    (∃ t, step (inWriteBack (.add 0 1 3) 9) = .next t) ∧
      ∃ w, (inWriteBack (.add 0 1 3) 9).memwb = some w ∧ w.dest = some 0 :=
  ⟨⟨rfl, ⟨_, rfl⟩, rfl⟩, ⟨rfl, ⟨_, rfl⟩, _, rfl, rfl, rfl⟩, ⟨_, rfl⟩, _, rfl, rfl⟩
theorem witness_MemoryStage :
    (demo.halted = false ∧ (∃ t, step demo = .next t) ∧ demo.exmem = none) ∧
    storeState.halted = false ∧ (∃ t, step storeState = .next t) ∧ ∃ e, storeState.exmem = some e :=
  ⟨⟨rfl, ⟨_, rfl⟩, rfl⟩, rfl, ⟨_, rfl⟩, _, rfl⟩
theorem witness_ForwardingUnit_operands : ∃ d, forwardState.idex = some d := ⟨_, rfl⟩
/-- EX/MEM matches R3, MEM/WB matches R1, and R31 matches neither. -/
theorem witness_ForwardingUnit :
    let e : ExMem := ⟨rAdd, 4, 6, 0, some 3, ctrlAlu .add, false, none⟩
    let w : MemWb := ⟨rLw, 0, 77, some 1, ctrlLw⟩
    (e.ctrl.regWrite = true ∧ e.dest = some 3 ∧ e.ctrl.memToReg = false) ∧
    ((1 : Reg) ≠ 0 ∧ ¬(e.ctrl.regWrite = true ∧ e.dest = some 1 ∧ e.ctrl.memToReg = false)) ∧
    (w.ctrl.regWrite = true ∧ w.dest = some 1) ∧
    ((31 : Reg) ≠ 0 ∧ ¬(e.dest = some 31) ∧ ¬(w.ctrl.regWrite = true ∧ w.dest = some 31)) := by decide
theorem witness_ExecuteStage :
    stallState.Inv ∧ stallState.halted = false ∧ (∃ t, step stallState = .next t) ∧
      (∃ d, stallState.idex = some d ∧ d.ctrl.useImmediate = true) ∧
    (∃ t, step forwardState = .next t) ∧ (∃ d, forwardState.idex = some d ∧ d.ctrl.useImmediate = false) ∧
    (∃ t, step demo = .next t) ∧ demo.idex = none :=
  ⟨stallState_inv, rfl, ⟨_, rfl⟩, ⟨_, rfl, rfl⟩, ⟨_, rfl⟩, ⟨_, rfl, rfl⟩, ⟨_, rfl⟩, rfl⟩
theorem witness_ForwardAccounting :
    forwardState.halted = false ∧ ∃ t, step forwardState = .next t ∧ t.last.forwards ≠ [] :=
  ⟨rfl, _, rfl, by decide⟩
theorem witness_BranchResolution :
    (flushState.halted = false ∧ (∃ t, step flushState = .next t) ∧
      ∃ d, flushState.idex = some d ∧ d.ctrl.isBranch = true ∧ opA flushState d = opB flushState d) ∧
    ((∃ t, step (inExecute (.beq 2 3 0)) = .next t) ∧ ∃ d, (inExecute (.beq 2 3 0)).idex = some d ∧
      d.ctrl.isBranch = true ∧ opA (inExecute (.beq 2 3 0)) d ≠ opB (inExecute (.beq 2 3 0)) d) ∧
    ∃ d, stallState.idex = some d ∧ d.ctrl.isBranch = false :=
  ⟨⟨rfl, ⟨_, rfl⟩, _, rfl, rfl, rfl⟩, ⟨⟨_, rfl⟩, _, rfl, rfl, by decide⟩, _, rfl, rfl⟩
theorem witness_StallExactlyOnLoadUse :
    stallState.halted = false ∧ (∃ t, step stallState = .next t ∧ t.last.stalled = true) ∧
    ∃ t, step forwardState = .next t ∧ t.last.stalled = false := ⟨rfl, ⟨_, rfl, by decide⟩, _, rfl, by decide⟩
theorem witness_StallHoldsTheFront :
    stallState.Inv ∧ stallState.halted = false ∧ (∃ t, step stallState = .next t) ∧
      ∃ f d, stallState.ifid = some f ∧ stallState.idex = some d ∧ d.ctrl.memRead = true ∧ d.dest = some 1 ∧
        (1 : Reg) ≠ 0 ∧ slotA f.instr.instr = some 1 :=
  ⟨stallState_inv, rfl, ⟨_, rfl⟩, _, _, rfl, rfl, rfl, rfl, by decide, rfl⟩
theorem witness_DecodeStage :
    onPathState.halted = false ∧ (∃ f, onPathState.ifid = some f) ∧
      ∃ t, step onPathState = .next t ∧ t.last.stalled = false ∧ t.last.flushed = false :=
  ⟨rfl, ⟨_, rfl⟩, _, rfl, by decide, by decide⟩
theorem witness_DecodeOfABubble :
    demo.halted = false ∧ (∃ t, step demo = .next t) ∧ demo.ifid = none := ⟨rfl, ⟨_, rfl⟩, rfl⟩
theorem witness_FetchStage :
    demo.halted = false ∧ ∃ t, step demo = .next t ∧ t.last.stalled = false ∧ t.last.flushed = false :=
  ⟨rfl, _, rfl, by decide, by decide⟩
theorem witness_BranchOverride :
    flushState.Inv ∧ flushState.halted = false ∧ (∃ t, step flushState = .next t) ∧
      (∃ d, flushState.idex = some d ∧ d.ctrl.isBranch = true ∧ opA flushState d = opB flushState d) ∧
    ((∃ t, step demo = .next t) ∧ ∀ d, demo.idex = some d → ¬(d.ctrl.isBranch = true ∧ opA demo d = opB demo d)) :=
  ⟨flushState_inv, rfl, ⟨_, rfl⟩, ⟨_, rfl, rfl, rfl⟩, ⟨_, rfl⟩, fun _ h => nomatch h⟩
theorem witness_ProgramCounterMoves :
    (flushState.Inv ∧ ∃ t, step flushState = .next t ∧ t.last.flushed = true) ∧
    (stallState.Inv ∧ ∃ t, step stallState = .next t ∧ t.last.stalled = true) ∧
    demo.Inv ∧ ∃ t, step demo = .next t ∧ t.last.stalled = false ∧ t.last.flushed = false :=
  ⟨⟨flushState_inv, _, rfl, by decide⟩, ⟨stallState_inv, _, rfl, by decide⟩, demo_inv, _, rfl, by decide, by decide⟩
theorem witness_StatisticsOfAStep : storeState.halted = false ∧ ∃ t, step storeState = .next t := ⟨rfl, _, rfl⟩
theorem witness_HaltCheck :
    ∃ t, step (inWriteBack .nop 0) = .next t ∧ (inWriteBack .nop 0).halted = false ∧ t.halted = true :=
  ⟨_, rfl, rfl, by decide⟩
theorem witness_LastCycleRecord :
    forwardState.Inv ∧ forwardState.halted = false ∧ ∃ t, step forwardState = .next t :=
  ⟨forwardState_inv, rfl, _, rfl⟩
theorem witness_StallAndFlushExclusive : flushState.Inv ∧ flushState.halted = false ∧ ∃ t, step flushState = .next t :=
  ⟨flushState_inv, rfl, _, rfl⟩
theorem witness_StallLastsOneStep :
    stallState.Inv ∧ stallState.halted = false ∧
      ∃ t, step stallState = .next t ∧ t.last.stalled = true ∧ ∃ u, step t = .next u :=
  ⟨stallState_inv, rfl, _, rfl, by decide, _, rfl⟩
theorem witness_HaltedIsStable : haltedState.halted = true := rfl
theorem witness_StepKeepsProgramAndParameters :
    (∃ t, step demo = .next t) ∧ ∃ t, exec .nop demo = .next t := ⟨⟨_, rfl⟩, _, rfl⟩
theorem witness_StepKeepsInvariant : forwardState.Inv ∧ ∃ t, step forwardState = .next t := ⟨forwardState_inv, _, rfl⟩
theorem witness_StepKeepsCoherence :
    forwardState.Inv ∧ forwardState.Coherent ∧ ∃ t, step forwardState = .next t :=
  ⟨forwardState_inv, forwardState_coherent, _, rfl⟩
theorem witness_HostCallsKeepInvariant :
    demo.Inv ∧ (hostCall (.loadProgram [rawAdd]) demo).2 = .done := ⟨demo_inv, by decide⟩
theorem witness_WellFormedStepAnswers : flushState.Inv := flushState_inv
theorem witness_AluInstructionsTakeEffect :
    onPathState.Inv ∧ onPathState.Coherent ∧ onPathState.halted = false ∧ fetchesOnPath onPathState = true :=
  ⟨onPathState_inv, onPathState_coherent, rfl, by decide⟩
theorem witness_LwTakesEffect :
    demo.Inv ∧ demo.Coherent ∧ demo.halted = false ∧ fetchesOnPath demo = true :=
  ⟨demo_inv, demo_coherent, rfl, by decide⟩
theorem witness_SwTakesEffect :
    demo.Inv ∧ demo.Coherent ∧ demo.halted = false ∧ fetchesOnPath demo = true := witness_LwTakesEffect
/-- Both cases of the branch: R2 = R2, and R2 = 8 against R4 = 5. -/
theorem witness_BeqTakesEffect :
    (demo.Inv ∧ demo.Coherent ∧ demo.halted = false ∧ fetchesOnPath demo = true) ∧
      readReg (settled demo).x 2 = readReg (settled demo).x 2 ∧ readReg (settled demo).x 2 ≠ readReg (settled demo).x 4 :=
  ⟨witness_LwTakesEffect, rfl, by decide⟩
theorem witness_NopTakesEffect :
    onPathState.Inv ∧ onPathState.Coherent ∧ onPathState.halted = false ∧ fetchesOnPath onPathState = true :=
  witness_AluInstructionsTakeEffect
theorem demo_drained : demo.Drained ∧ demo.halted = false := ⟨⟨rfl, rfl, rfl, rfl⟩, rfl⟩
theorem witness_AluInstructionsPassThrough : demo.Drained ∧ demo.halted = false := demo_drained
theorem witness_LwPassesThrough : demo.Drained ∧ demo.halted = false := demo_drained
theorem witness_SwPassesThrough : demo.Drained ∧ demo.halted = false := demo_drained
theorem witness_BeqPassesThrough :
    (demo.Inv ∧ demo.Drained ∧ demo.halted = false) ∧ readReg demo.x 2 ≠ readReg demo.x 4 :=
  ⟨⟨demo_inv, demo_drained⟩, by decide⟩
theorem witness_NopPassesThrough : demo.Drained ∧ demo.halted = false := demo_drained
theorem witness_SettledWhenDrained : demo.Drained := demo_drained.1
theorem witness_StepRefinesSequential :
    (forwardState.Inv ∧ forwardState.Coherent ∧ forwardState.halted = false ∧ ∃ t, step forwardState = .next t) ∧
    fetchesOnPath demo = true ∧ fetchesOnPath stallState = false ∧ fetchesOnPath flushState = false :=
  ⟨⟨forwardState_inv, forwardState_coherent, rfl, _, rfl⟩, by decide, by decide, by decide⟩
theorem witness_RunRefinesSequential :
    stallState.Inv ∧ stallState.Coherent ∧ ∃ t, core.run 1 stallState = .next t :=
  ⟨stallState_inv, stallState_coherent, _, rfl⟩
theorem witness_LoadProgramRule :
    rawProgramWellFormed [rawAdd] = true ∧ rawProgramWellFormed [rawAdd, rawAdd] = false := by decide
theorem witness_LoadFromSourceRule :
    (parse "FOO").errors ≠ [] ∧
    ((parse "NOP").errors = [] ∧ rawProgramWellFormed (parse "NOP").instructions = true) ∧
    ((parse "LW R1, 2147483648(R0)").errors = [] ∧
      rawProgramWellFormed (parse "LW R1, 2147483648(R0)").instructions = false) := by decide
theorem witness_ParserOutputIsWellFormed :
    (parse "L: BEQ R1, R2, L").errors = [] ∧
      ∀ r ∈ (parse "L: BEQ R1, R2, L").instructions, ∀ v, r.imm = some v → InInt32 v := by
  refine ⟨by decide, fun r hr v hv => ?_⟩
  have h : (parse "L: BEQ R1, R2, L").instructions.all (fun r => r.imm == some (-1)) = true := by decide
  have := List.all_eq_true.mp h r hr
  rw [hv] at this
  have hv' : v = -1 := by simpa using this
  rw [hv']
  decide
theorem witness_RestoreStateRule :
    (installed (exportState demo) demo).wellFormed = true ∧
    (installed { exportState demo with pc := 2 } demo).wellFormed = false := by decide
/-- One exported state for each refusal that R44's list names, and one for the memory form. -/
theorem witness_RestoreStateRule_refusals :
    let e := exportState demo
    (readReg ({ e with x := (Vector.replicate 32 0).set 0 1#32 } : EngineState).x 0 ≠ 0) ∧
    (({ e with pc := 2 } : EngineState).pc % 4 ≠ 0 ∧ ({ e with pc := -1 } : EngineState).pc % 4 ≠ 0) ∧
    (∃ f, ({ e with ifid := some ⟨rAdd, 0⟩ } : EngineState).ifid = some f ∧ f.addr ≠ f.instr.pc) ∧
    (∃ f, ({ e with ifid := some ⟨⟨.nop, "NOP", 4⟩, 4⟩ } : EngineState).ifid = some f ∧
      fetch demo.program f.instr.pc ≠ some f.instr) ∧
    (∃ d, ({ e with idex := some { decoded demo.x ⟨rBeq, 8⟩ with target := none } } : EngineState).idex = some d ∧
      d.target ≠ targetOf d.instr) ∧
    (∃ m, ({ e with exmem := some ⟨rSw, 12, 12, 5, none, ctrlLw, false, none⟩ } : EngineState).exmem = some m ∧
      m.ctrl ≠ ctrlOf m.instr.instr) ∧
    (∃ w, ({ e with memwb := some ⟨rAdd, 4, 6, some 1, ctrlAlu .add⟩ } : EngineState).memwb = some w ∧
      w.dest ≠ destOf w.instr.instr) ∧
    (({ e with halted := true } : EngineState).halted = true ∧ ¬4 * (demo.program.length : Int) ≤ e.pc) ∧
    ¬Memory.wf demo.params.memWords ({ e with mem := [(64, 1#32)] } : EngineState).mem :=
  ⟨by decide, by decide, ⟨_, rfl, by decide⟩, ⟨_, rfl, by decide⟩, ⟨_, rfl, by decide⟩, ⟨_, rfl, by decide⟩,
    ⟨_, rfl, by decide⟩, by decide, by decide⟩
theorem witness_ExportThenRestore :
    demo.Inv ∧ stallState.program = demo.program ∧ stallState.params = demo.params := ⟨demo_inv, rfl, rfl⟩
theorem witness_RefusalsChangeNothing :
    demo.Inv ∧ (hostCall (.loadProgram [{ rawAdd with pc := 4 }]) demo).2 = .refused .illFormedProgram ∧
      (parse "FOO").errors ≠ [] :=
  ⟨demo_inv, by decide, by decide⟩
theorem witness_DerivedStatistics :
    let s : State := { demo with stats := ⟨9, 4, 0, 0, 5, 3⟩ }
    0 < s.stats.instructionsCompleted ∧ 0 < s.stats.branchCount ∧ demo.stats.instructionsCompleted = 0 ∧
      demo.stats.branchCount = 0 := by decide
theorem witness_SnapshotShowsTheStep :
    (stallState.halted = false ∧ ∃ t, step stallState = .next t ∧ t.last.stalled = true ∧ t.last.flushed = false) ∧
    (∃ t, step flushState = .next t ∧ t.last.flushed = true ∧ t.last.stalled = false) ∧
    (∃ t, step demo = .next t ∧ t.last.stalled = false ∧ t.last.flushed = false ∧ t.last.forwards = []) ∧
    ∃ t, step forwardState = .next t ∧ t.last.stalled = false ∧ t.last.flushed = false ∧ t.last.forwards ≠ [] :=
  ⟨⟨rfl, _, rfl, by decide, by decide⟩, ⟨_, rfl, by decide, by decide⟩, ⟨_, rfl, by decide, by decide, by decide⟩,
    _, rfl, by decide, by decide, by decide⟩

end Sys2Proof.Tests
end

section
/-! SUPPORT. Proofs of the statements about the state (spec/10_state.md): register writes, the moves of the pc, the
counters, and the derived statistics, over rules about the parts of an edge they read. -/

namespace Sys2Proof.Machine

/-! Rules about an edge -/

/-- A step of a machine that is not halted is the clocked state. -/
theorem eq_clocked_of_step {s t : State} (hh : s.halted = false) (h : step s = .next t) :
    t = clocked (fetch s.program s.pc) s := by
  rcases step_cases h with ⟨hhalted, -⟩ | ⟨-, -, rfl⟩
  · simp [hh] at hhalted
  · rfl

section StepRecord
variable (v : Option Record) (s : State)

@[simp] theorem newLast_stalled : (newLast v s).stalled = stalls s := rfl
@[simp] theorem newLast_flushed : (newLast v s).flushed = branchTaken s := rfl
@[simp] theorem newLast_forwards : (newLast v s).forwards = stepForwards s := rfl

end StepRecord

/-! Register writes (spec/10_state.md R23) -/

/-- WB leaves the register file alone, or writes the destination of a `regWrite` instruction in MEM/WB. -/
theorem wbRegs_cases (s : State) :
    wbRegs s = s.x ∨
      ∃ w d, s.memwb = some w ∧ w.ctrl.regWrite = true ∧ w.dest = some d ∧ wbRegs s = writeReg s.x d w.writeData := by
  cases hw : s.memwb with
  | none => exact .inl (by simp [wbRegs, hw])
  | some w =>
    cases hr : w.ctrl.regWrite with
    | false => exact .inl (by simp [wbRegs, hw, hr])
    | true =>
      cases hd : w.dest with
      | none => exact .inl (by simp [wbRegs, hw, hr, hd, writeDest])
      | some d => exact .inr ⟨w, d, rfl, hr, hd, by simp [wbRegs, hw, hr, hd, writeDest]⟩

/-- Settles O8: the first two parts are the rules of `writeReg`, the third is that a running step's register file
is the one WB leaves. -/
theorem registerWritePrimitive : Obligations.RegisterWritePrimitive := by
  unfold Obligations.RegisterWritePrimitive
  refine ⟨fun x i v hi => ⟨readReg_writeReg_same x hi v, fun j hj => readReg_writeReg_other x hj v⟩,
    writeReg_zero, fun s t hstep hne => ?_⟩
  rcases step_cases hstep with ⟨-, rfl⟩ | ⟨-, -, rfl⟩
  · exact absurd rfl hne
  · rw [clocked_x] at hne ⊢
    exact (wbRegs_cases s).resolve_left hne

/-! The pc (spec/10_state.md R27) -/

/-- Only BEQ has the branch signal (spec/30_encoding.md R89). -/
theorem eq_beq_of_isBranch {i : Instr} (h : (ctrlOf i).isBranch = true) : ∃ rs rt imm, i = .beq rs rt imm := by
  cases i with
  | beq rs rt imm => exact ⟨rs, rt, imm, rfl⟩
  | add | sub | and | or | lw | sw | nop => cases h

/-- The ID/EX latch of a well-formed machine agrees with its instruction (spec/10_state.md R44). -/
theorem State.Inv.idexAgrees {s : State} (hinv : s.Inv) {d : IdEx} (hd : s.idex = some d) :
    idexAgrees s.program d = true := by
  obtain ⟨-, -, -, -, hidex, -⟩ := (wellFormed_iff s).mp hinv.1
  exact hidex d hd

/-- A branch is taken exactly if ID/EX holds a branch whose operands meet the branch condition (R142). -/
theorem branchTaken_iff (s : State) :
    branchTaken s = true ↔
      ∃ d, s.idex = some d ∧ d.ctrl.isBranch = true ∧ branchCondition (opA s d) (opB s d) = true := by
  cases hd : s.idex with
  | none => simp [branchTaken, hd]
  | some d => simp [branchTaken_of_idex hd]

/-- The load that stalls ID stands in ID/EX, so no branch is taken there (R158). -/
theorem not_branchTaken_of_stalls {s : State} (hinv : s.Inv) (hstall : stalls s = true) : branchTaken s = false := by
  obtain ⟨⟨r, load, held⟩, huse⟩ := Option.isSome_iff_exists.mp hstall
  obtain ⟨f, d, -, hd, hread, -⟩ := (loadUse_iff s r load held).mp huse
  obtain ⟨-, hctrl, -⟩ := idexAgrees_iff.mp (hinv.idexAgrees hd)
  have hbranch : d.ctrl.isBranch = false := by
    rw [hctrl] at hread ⊢
    exact isBranch_of_memRead _ hread
  simp [branchTaken_of_idex hd, hbranch]

/-- A taken branch of a well-formed machine is a BEQ, and the pc goes to its target (R85, R150). -/
theorem newPc_of_taken {s : State} (hinv : s.Inv) (htaken : branchTaken s = true) :
    ∃ d rs rt imm, s.idex = some d ∧ d.instr.instr = .beq rs rt imm ∧ newPc s = branchTarget d.instr.pc imm := by
  obtain ⟨d, hd, hbranch, hcond⟩ := (branchTaken_iff s).mp htaken
  obtain ⟨-, hctrl, -, -, htarget⟩ := idexAgrees_iff.mp (hinv.idexAgrees hd)
  obtain ⟨rs, rt, imm, hbeq⟩ := eq_beq_of_isBranch (hctrl ▸ hbranch)
  have hto : d.target = some (branchTarget d.instr.pc imm) := by simp [htarget, targetOf, hbeq]
  exact ⟨d, rs, rt, imm, hd, hbeq, by simp [newPc, redirect, hd, branchTakenIn, hbranch, hcond, hto]⟩

/-- Settles O24, by the three ways an edge chooses the pc; a stall takes no branch. -/
theorem programCounterMoves : Obligations.ProgramCounterMoves := by
  unfold Obligations.ProgramCounterMoves
  intro s t hinv hh hstep
  obtain rfl := eq_clocked_of_step hh hstep
  simp only [clocked_last, clocked_pc, newLast_stalled, newLast_flushed]
  refine ⟨fun hstall => ?_, fun htaken => newPc_of_taken hinv htaken, fun hstall htaken => ?_⟩
  · rw [newPc_of_not_taken (not_branchTaken_of_stalls hinv hstall), pcCandidate, if_pos hstall]
  · simp [newPc_of_not_taken htaken, pcCandidate, hstall]

/-! The counters (spec/10_state.md R32) -/

theorem tally_isSome {α : Type} (o : Option α) : tally o.isSome = if o.isNone = true then 0 else 1 := by
  cases o <;> rfl

section StepCounters
variable (s : State)

theorem newStats_instructionsCompleted :
    (newStats s).instructionsCompleted =
      s.stats.instructionsCompleted + if s.memwb.isNone = true then 0 else 1 := by
  rw [newStats, tally_isSome]

theorem newStats_stallCount :
    (newStats s).stallCount = s.stats.stallCount + if stalls s = true then 1 else 0 := rfl

theorem newStats_branchMispredictions :
    (newStats s).branchMispredictions =
      s.stats.branchMispredictions + if branchTaken s = true then 1 else 0 := rfl

variable {s}

theorem newStats_branchCount_of_idex {d : IdEx} (h : s.idex = some d) :
    (newStats s).branchCount = s.stats.branchCount + if d.ctrl.isBranch = true then 1 else 0 := by
  simp [newStats, branchResolves, h, tally]

theorem newStats_branchCount_of_bubble (h : s.idex = none) : (newStats s).branchCount = s.stats.branchCount := by
  simp [newStats, branchResolves, h, tally]

end StepCounters

/-- Settles O25, counter by counter. -/
theorem statisticsOfAStep : Obligations.StatisticsOfAStep := by
  unfold Obligations.StatisticsOfAStep
  refine ⟨fun s t hh hstep => ?_, rfl⟩
  obtain rfl := eq_clocked_of_step hh hstep
  exact ⟨rfl, newStats_instructionsCompleted s, newStats_stallCount s, rfl,
    fun _ => newStats_branchCount_of_idex, newStats_branchCount_of_bubble, newStats_branchMispredictions s⟩

/-! Derived statistics (spec/10_state.md R33) -/

theorem cpiOf_mul_completed {c : Stats} (h : 0 < c.instructionsCompleted) :
    cpiOf c * c.instructionsCompleted = c.cycleCount := by
  have hne : (c.instructionsCompleted : Rat) ≠ 0 := Nat.cast_ne_zero.mpr h.ne'
  rw [cpiOf, if_pos h, div_mul_cancel₀ _ hne]

theorem branchAccuracyOf_mul_branches {c : Stats} (h : 0 < c.branchCount) :
    branchAccuracyOf c * c.branchCount = ((c.branchCount : Rat) - c.branchMispredictions) * 100 := by
  have hne : (c.branchCount : Rat) ≠ 0 := Nat.cast_ne_zero.mpr h.ne'
  rw [branchAccuracyOf, if_pos h, mul_right_comm, div_mul_cancel₀ _ hne]

/-- Settles O58: a quotient times its nonzero divisor, and the two branches for a count of 0. -/
theorem derivedStatistics : Obligations.DerivedStatistics := by
  unfold Obligations.DerivedStatistics
  intro s
  refine ⟨cpiOf_mul_completed, fun hnone => ?_, branchAccuracyOf_mul_branches, fun hnone => ?_⟩
  · simp [snapshot, cpiOf, hnone]
  · simp [snapshot, branchAccuracyOf, hnone]

end Sys2Proof.Machine
end

section
/-! SUPPORT. Proof of the statement about the fetch primitive (spec/20_memory.md R68): what fetch gives at the address
of a slot, below 0, and past the program end. -/

namespace Sys2Proof.Machine

section FetchByAddress
variable (program : List Record)

/-- Slot `k` of the program is fetched from its own address `4k`, also where the program has no such slot. -/
theorem fetch_slotAddress (k : Nat) : fetch program (4 * (k : Int)) = program[k]? := by
  have hnonneg : 0 ≤ 4 * (k : Int) := by omega
  have hslot : (4 * (k : Int) / 4).toNat = k := by omega
  rw [fetch, if_pos hnonneg, hslot]

theorem fetch_of_neg {p : Int} (hneg : p < 0) : fetch program p = none :=
  if_neg (not_le.mpr hneg)

/-- Past the program end fetch gives a bubble at every pc, a multiple of 4 or not. -/
theorem fetch_of_pastEnd {p : Int} (hend : 4 * (program.length : Int) ≤ p) : fetch program p = none := by
  have hnonneg : 0 ≤ p := by omega
  have hslot : program.length ≤ (p / 4).toNat := by omega
  rw [fetch, if_pos hnonneg, List.getElem?_eq_none hslot]

end FetchByAddress

/-- Settles O12, clause by clause; only the first is about a multiple of 4. -/
theorem fetchRule : Obligations.FetchRule := by
  unfold Obligations.FetchRule
  intro program p _
  refine ⟨fun k hk => ?_, fetch_of_neg program, fetch_of_pastEnd program⟩
  rw [hk, fetch_slotAddress]

end Sys2Proof.Machine
end

section
/-! SUPPORT. Proofs of the statements about the stages of one clock edge (spec/40_pipeline.md R134 to R155): for each
stage first the rules of its functions, case by case, then the statements about a step. -/

namespace Sys2Proof.Machine

section StageRules
variable {v : Option Record} {s : State}

/-! Write-back (R134) -/

theorem wbRegs_of_bubble (hw : s.memwb = none) : wbRegs s = s.x := by rw [wbRegs, hw]

theorem wbRegs_of_write {w : MemWb} {d : Reg} (hw : s.memwb = some w) (hwrite : w.ctrl.regWrite = true)
    (hdest : w.dest = some d) : wbRegs s = writeReg s.x d w.writeData := by
  simp [wbRegs, hw, hwrite, hdest, writeDest]

/-- WB writes only for a `regWrite` instruction with a destination other than register 0. -/
theorem wbRegs_of_no_write {w : MemWb} (hw : s.memwb = some w)
    (hnone : w.ctrl.regWrite = false ∨ w.dest = none ∨ w.dest = some 0) : wbRegs s = s.x := by
  rcases hnone with hno | habsent | hzero
  · simp [wbRegs, hw, hno]
  · simp [wbRegs, hw, habsent, writeDest]
  · simp [wbRegs, hw, hzero, writeDest, writeReg_zero]

/-! Memory access (R135) -/

theorem memAfter_of_bubble (he : s.exmem = none) : memAfter s = s.mem := by rw [memAfter, he]

theorem memAfter_of_exmem {e : ExMem} (he : s.exmem = some e) :
    memAfter s = if e.ctrl.memWrite = true then memWrite s.params s.mem e.aluResult e.storeData else s.mem := by
  rw [memAfter, he]

theorem newMemWb_of_bubble (he : s.exmem = none) : newMemWb s = none := by rw [newMemWb, he]

theorem newMemWb_of_exmem {e : ExMem} (he : s.exmem = some e) :
    newMemWb s =
      some { instr := e.instr, addr := e.addr
             writeData := if e.ctrl.memToReg = true then loadedWord s e else e.aluResult
             dest := e.dest, ctrl := e.ctrl } := by
  rw [newMemWb, he]

/-! Execute (R136 to R143) -/

theorem newExMem_of_bubble (hd : s.idex = none) : newExMem s = none := by rw [newExMem, hd]

theorem newExMem_of_idex {d : IdEx} (hd : s.idex = some d) :
    newExMem s =
      some { instr := d.instr, addr := d.addr, aluResult := aluOut s d, storeData := opB s d, dest := d.dest
             ctrl := d.ctrl, branchTaken := branchTakenIn s d
             branchTarget := if d.ctrl.isBranch = true then d.target else none } := by
  rw [newExMem, hd]

theorem srcB_of_not_useImmediate {d : IdEx} (huse : d.ctrl.useImmediate = false) : srcB s d = opB s d := by
  simp [srcB, huse]

theorem aluOut_of_op {d : IdEx} {op : AluOp} (hop : d.ctrl.aluOp = op) :
    aluOut s d = alu op (opA s d) (srcB s d) := by rw [aluOut, hop]

/-- A complete latch has the immediate its control signals use, and it is the ALU's second input. -/
theorem imm_eq_srcB {d : IdEx} (hcomplete : latchComplete d = true) (huse : d.ctrl.useImmediate = true) :
    d.imm = some (srcB s d) := by
  simp only [latchComplete, huse, Bool.and_eq_true, Bool.not_true, Bool.false_or] at hcomplete
  obtain ⟨imm, himm⟩ := Option.isSome_iff_exists.mp hcomplete.1
  simp [srcB, huse, himm]

theorem branchTakenIn_iff {d : IdEx} :
    branchTakenIn s d = true ↔ d.ctrl.isBranch = true ∧ opA s d = opB s d := by
  simp [branchTakenIn, branchCondition]

theorem branchTaken_eq_branchTakenIn {d : IdEx} (hd : s.idex = some d) : branchTaken s = branchTakenIn s d :=
  branchTaken_of_idex hd

/-- The ID/EX latch of a well-formed machine is complete. -/
theorem State.Inv.latchComplete {d : IdEx} (hinv : s.Inv) (hd : s.idex = some d) : latchComplete d = true :=
  latchComplete_of_agrees (hinv.idexAgrees hd)

/-- A taken branch on a complete latch redirects to the latch's target. -/
theorem redirect_of_taken {d : IdEx} (hd : s.idex = some d) (hcomplete : latchComplete d = true)
    (htaken : branchTakenIn s d = true) :
    ∃ target, d.target = some target ∧ redirect s = some (d.instr, target) := by
  have hbranch : d.ctrl.isBranch = true := (branchTakenIn_iff.mp htaken).1
  simp only [latchComplete, hbranch, Bool.and_eq_true, Bool.not_true, Bool.false_or] at hcomplete
  obtain ⟨target, htarget⟩ := Option.isSome_iff_exists.mp hcomplete.2
  exact ⟨target, htarget, by simp [redirect, hd, htaken, htarget]⟩

/-! Decode (R144 to R147) -/

/-- A step that takes a branch does not stall: the other side of `not_branchTaken_of_stalls` (R157). -/
theorem not_stalls_of_branchTaken (hinv : s.Inv) (htaken : branchTaken s = true) : stalls s = false :=
  Bool.eq_false_iff.mpr fun hstall => by simp [not_branchTaken_of_stalls hinv hstall] at htaken

theorem readsReg_iff {i : Instr} {r : Reg} : readsReg i r = true ↔ slotA i = some r ∨ slotB i = some r := by
  simp [readsReg]

/-- Decode stalls exactly if the load-use check finds a hazard (R144, R145). -/
theorem stalls_iff :
    stalls s = true ↔
      ∃ f d r, s.ifid = some f ∧ s.idex = some d ∧ d.ctrl.memRead = true ∧ d.dest = some r ∧ r ≠ 0 ∧
        (slotA f.instr.instr = some r ∨ slotB f.instr.instr = some r) := by
  constructor
  · intro hstall
    obtain ⟨⟨r, load, held⟩, huse⟩ := Option.isSome_iff_exists.mp hstall
    obtain ⟨f, d, hf, hd, hread, hdest, hr, hreads, -⟩ := (loadUse_iff s r load held).mp huse
    exact ⟨f, d, r, hf, hd, hread, hdest, hr, readsReg_iff.mp hreads⟩
  · rintro ⟨f, d, r, hf, hd, hread, hdest, hr, hreads⟩
    exact Option.isSome_iff_exists.mpr
      ⟨_, (loadUse_iff s r d.instr f.instr).mpr ⟨f, d, hf, hd, hread, hdest, hr, readsReg_iff.mpr hreads, rfl, rfl⟩⟩

theorem slotValue_of_slot {x : Regs} {slot : Option Reg} {r : Reg} (hslot : slot = some r) :
    slotValue x slot = readReg x r := by rw [hslot, slotValue]

theorem slotValue_of_no_slot {x : Regs} {slot : Option Reg} (hslot : slot = none) : slotValue x slot = 0 := by
  rw [hslot, slotValue]

theorem newIdEx_of_stall (hstall : stalls s = true) : newIdEx s = none := by simp [newIdEx, builtIdEx, hstall]

theorem newIdEx_of_taken (htaken : branchTaken s = true) : newIdEx s = none := by simp [newIdEx, htaken]

theorem newIdEx_of_decode {f : IfId} (hf : s.ifid = some f) (hstall : stalls s = false)
    (htaken : branchTaken s = false) : newIdEx s = some (decoded (wbRegs s) f) := by
  simp [newIdEx, builtIdEx, hf, hstall, htaken]

/-! Fetch (R148, R149) and the branch override (R150) -/

theorem fetched_of_stall (hstall : stalls s = true) : fetched v s = s.ifid.map (·.instr) := if_pos hstall

theorem fetched_of_no_stall (hstall : stalls s = false) : fetched v s = v := by simp [fetched, hstall]

theorem pcCandidate_of_stall (hstall : stalls s = true) : pcCandidate s = s.pc := if_pos hstall

theorem pcCandidate_of_no_stall (hstall : stalls s = false) : pcCandidate s = s.pc + 4 := by
  simp [pcCandidate, hstall]

theorem newIfId_of_taken (htaken : branchTaken s = true) : newIfId v s = none := by simp [newIfId, htaken]

theorem newIfId_of_stall (hstall : stalls s = true) (htaken : branchTaken s = false) : newIfId v s = s.ifid := by
  simp [newIfId, builtIfId, hstall, htaken]

theorem newIfId_of_fetch (hstall : stalls s = false) (htaken : branchTaken s = false) :
    newIfId v s = v.map fun r => { instr := r, addr := s.pc } := by
  simp [newIfId, builtIfId, hstall, htaken]

/-- Without a stall the override squashes the instruction of IF/ID and the fetched one (R150). -/
theorem squashed_of_no_stall (hstall : stalls s = false) :
    squashed v s = (s.ifid.map (·.instr)).toList ++ v.toList := by
  have hid : (builtIdEx s).map (·.instr) = s.ifid.map (·.instr) := by
    cases hf : s.ifid <;> simp [builtIdEx, hstall, hf, decoded]
  have hif : (builtIfId v s).map (·.instr) = v := by
    cases v <;> simp [builtIfId, hstall]
  rw [squashed, hid, hif]

/-! The record of the step (R155) -/

@[simp] theorem newLast_events : (newLast v s).events = forwardEvents s ++ stallEvents s ++ flushEvents v s := rfl

theorem forwardEvents_of_bubble (hd : s.idex = none) : forwardEvents s = [] := by rw [forwardEvents, hd]

theorem forwardEvents_of_idex {d : IdEx} (hd : s.idex = some d) :
    forwardEvents s = (stepForwards s).map fun f => .forward f.reg f.source f.slot d.instr := by
  rw [forwardEvents, hd]

theorem stallEvents_of_no_stall (hstall : stalls s = false) : stallEvents s = [] := by
  have hnone : loadUse s = none := by simpa [stalls] using hstall
  rw [stallEvents, hnone]

theorem stallEvents_of_loadUse {r : Reg} {load held : Record} (huse : loadUse s = some (r, load, held)) :
    stallEvents s = [.stall r load held] := by rw [stallEvents, huse]

theorem flushEvents_of_not_taken (htaken : branchTaken s = false) : flushEvents v s = [] := by
  rw [flushEvents, redirect_of_not_taken htaken]

theorem flushEvents_of_redirect {b : Record} {target : Int} (hto : redirect s = some (b, target)) :
    flushEvents v s = [.flush b target (squashed v s)] := by rw [flushEvents, hto]

theorem newPc_of_redirect {b : Record} {target : Int} (hto : redirect s = some (b, target)) : newPc s = target := by
  rw [newPc, hto]

end StageRules

/-! The forwarding unit on one slot (R137) -/

section ForwardingRules
variable {exmem : Option ExMem} {memwb : Option MemWb} {r : Reg}

/-- EX/MEM offers its result to a match that is no load. -/
theorem fromExMem_of_match {e : ExMem} (he : exmem = some e) (hwrite : e.ctrl.regWrite = true)
    (hdest : e.dest = some r) (hload : e.ctrl.memToReg = false) : fromExMem exmem r = some e.aluResult := by
  simp [fromExMem, he, hwrite, hdest, hload]

theorem fromExMem_of_no_match
    (hno : ∀ e, exmem = some e → ¬(e.ctrl.regWrite = true ∧ e.dest = some r ∧ e.ctrl.memToReg = false)) :
    fromExMem exmem r = none := by
  cases exmem with
  | none => rfl
  | some e =>
    have hne := hno e rfl
    refine if_neg ?_
    simpa [and_assoc] using hne

theorem fromMemWb_of_match {w : MemWb} (hw : memwb = some w) (hwrite : w.ctrl.regWrite = true)
    (hdest : w.dest = some r) : fromMemWb memwb r = some w.writeData := by
  simp [fromMemWb, hw, hwrite, hdest]

theorem fromMemWb_of_no_match
    (hno : ∀ w, memwb = some w → ¬(w.ctrl.regWrite = true ∧ w.dest = some r)) : fromMemWb memwb r = none := by
  cases memwb with
  | none => rfl
  | some w =>
    have hne := hno w rfl
    refine if_neg ?_
    simpa using hne

/-- Register 0 is never forwarded. -/
theorem forwardOf_zero : forwardOf exmem memwb 0 = none := rfl

theorem forwardOf_of_exmem {val : Word} (hr : r ≠ 0) (hex : fromExMem exmem r = some val) :
    forwardOf exmem memwb r = some (.exmem, val) := by simp [forwardOf, hr, hex]

theorem forwardOf_of_memwb {val : Word} (hr : r ≠ 0) (hex : fromExMem exmem r = none)
    (hwb : fromMemWb memwb r = some val) : forwardOf exmem memwb r = some (.memwb, val) := by
  simp [forwardOf, hr, hex, hwb]

theorem forwardOf_of_neither (hex : fromExMem exmem r = none) (hwb : fromMemWb memwb r = none) :
    forwardOf exmem memwb r = none := by simp [forwardOf, hex, hwb]

variable (sl : Slot) (base : Word)

/-- A forwarded slot takes the forwarded value and leaves one record of it. -/
theorem slot_of_forward {src : ForwardSource} {val : Word} (hfw : forwardOf exmem memwb r = some (src, val)) :
    operandOf exmem memwb (some r) base = val ∧ forwardsOf exmem memwb sl (some r) = [⟨sl, r, src, val⟩] := by
  simp [operandOf, forwardsOf, hfw]

/-- A slot that is not forwarded keeps its value and leaves no record. -/
theorem slot_of_no_forward (hfw : forwardOf exmem memwb r = none) :
    operandOf exmem memwb (some r) base = base ∧ forwardsOf exmem memwb sl (some r) = [] := by
  simp [operandOf, forwardsOf, hfw]

end ForwardingRules

/-! The statements -/

/-- Settles O13, by what WB does with the latch: a bubble, a write, or no write. -/
theorem writeBackStage : Obligations.WriteBackStage := by
  unfold Obligations.WriteBackStage
  intro s t hh hstep
  obtain rfl := eq_clocked_of_step hh hstep
  simp only [clocked_x, clocked_stats, newStats_instructionsCompleted]
  refine ⟨fun hbubble => ⟨wbRegs_of_bubble hbubble, by simp [hbubble]⟩,
    fun w hw => ⟨by simp [hw], fun d hwrite hdest hd => ?_, wbRegs_of_no_write hw⟩⟩
  rw [wbRegs_of_write hw hwrite hdest]
  exact ⟨readReg_writeReg_same s.x hd w.writeData, fun j hj => readReg_writeReg_other s.x hj w.writeData⟩

/-- Settles O14, by the rules of memory and of the MEM/WB latch for a bubble and for an instruction in EX/MEM. -/
theorem memoryStage : Obligations.MemoryStage := by
  unfold Obligations.MemoryStage
  intro s t hh hstep
  obtain rfl := eq_clocked_of_step hh hstep
  exact ⟨fun hbubble => ⟨memAfter_of_bubble hbubble, newMemWb_of_bubble hbubble⟩,
    fun e he => ⟨memAfter_of_exmem he, _, newMemWb_of_exmem he, rfl, rfl, rfl, rfl, rfl⟩⟩

/-- Settles O15: in each case what `forwardOf` offers, and with it operand and record of the slot. -/
theorem forwardingUnit : Obligations.ForwardingUnit := by
  unfold Obligations.ForwardingUnit
  refine ⟨fun s d hd => ⟨rfl, rfl, by rw [stepForwards, hd]⟩, fun exmem memwb sl base =>
    ⟨⟨rfl, rfl⟩, slot_of_no_forward sl base forwardOf_zero, fun r hr => ⟨fun e he hwrite hdest hload => ?_,
      fun hnoEx => ⟨fun w hw hwrite hdest => ?_, fun hnoWb => ?_⟩⟩⟩⟩
  · exact slot_of_forward sl base (forwardOf_of_exmem hr (fromExMem_of_match he hwrite hdest hload))
  · exact slot_of_forward sl base
      (forwardOf_of_memwb hr (fromExMem_of_no_match hnoEx) (fromMemWb_of_match hw hwrite hdest))
  · exact slot_of_no_forward sl base
      (forwardOf_of_neither (fromExMem_of_no_match hnoEx) (fromMemWb_of_no_match hnoWb))

/-- Settles O16: the latch EX builds, its second ALU input present because the well-formed latch is complete. -/
theorem executeStage : Obligations.ExecuteStage := by
  unfold Obligations.ExecuteStage
  intro s t hinv hh hstep
  obtain rfl := eq_clocked_of_step hh hstep
  refine ⟨newExMem_of_bubble, fun d hd => ⟨_, opA s d, opB s d, srcB s d, rfl, rfl,
    imm_eq_srcB (hinv.latchComplete hd), srcB_of_not_useImmediate, newExMem_of_idex hd, rfl, rfl, rfl, rfl, rfl,
    aluOut_of_op, aluOut_of_op, aluOut_of_op, aluOut_of_op, aluOut_of_op, branchTakenIn_iff, rfl⟩⟩

/-- Settles O18, by the counters and the latch an edge gives an instruction in ID/EX. -/
theorem branchResolution : Obligations.BranchResolution := by
  unfold Obligations.BranchResolution
  intro s t hh hstep
  obtain rfl := eq_clocked_of_step hh hstep
  simp only [clocked_stats, clocked_exmem, newStats_branchMispredictions]
  refine ⟨fun d hd hbranch => ?branch, fun d hd hbranch => ?other, fun hbubble => ?bubble⟩
  case branch =>
    have htaken : branchTaken s = true ↔ opA s d = opB s d := by
      simp [branchTaken_eq_branchTakenIn hd, branchTakenIn_iff, hbranch]
    refine ⟨by simp [newStats_branchCount_of_idex hd, hbranch], fun heq => by simp [htaken.mpr heq],
      fun hne => by simp [mt htaken.mp hne], _, newExMem_of_idex hd, ?_, if_pos hbranch⟩
    exact branchTaken_eq_branchTakenIn hd ▸ htaken
  case other =>
    have htaken : branchTakenIn s d = false := by simp [branchTakenIn, hbranch]
    exact ⟨by simp [newStats_branchCount_of_idex hd, hbranch], by simp [branchTaken_eq_branchTakenIn hd, htaken],
      _, newExMem_of_idex hd, htaken, by simp [hbranch]⟩
  case bubble =>
    exact ⟨newStats_branchCount_of_bubble hbubble, by simp [branchTaken, hbubble]⟩

/-- Settles O19: the record's flag is the load-use check. -/
theorem stallExactlyOnLoadUse : Obligations.StallExactlyOnLoadUse := by
  unfold Obligations.StallExactlyOnLoadUse
  intro s t hh hstep
  obtain rfl := eq_clocked_of_step hh hstep
  exact stalls_iff

/-- Settles O20: the hazard stalls, and the load that causes it takes no branch, so nothing is flushed. -/
theorem stallHoldsTheFront : Obligations.StallHoldsTheFront := by
  unfold Obligations.StallHoldsTheFront
  intro s t f d r hinv hh hstep hf hd hread hdest hr hreads
  obtain rfl := eq_clocked_of_step hh hstep
  have huse : loadUse s = some (r, d.instr, f.instr) :=
    (loadUse_iff s r d.instr f.instr).mpr ⟨f, d, hf, hd, hread, hdest, hr, readsReg_iff.mpr hreads, rfl, rfl⟩
  have hstall : stalls s = true := Option.isSome_of_eq_some huse
  have htaken : branchTaken s = false := not_branchTaken_of_stalls hinv hstall
  refine ⟨newIdEx_of_stall hstall, (newIfId_of_stall hstall htaken).trans hf,
    (newPc_of_not_taken htaken).trans (pcCandidate_of_stall hstall), ?fetched, ?count, hstall, ?events, rfl⟩
  case fetched => simp [fetched_of_stall hstall, hf]
  case count => simp [newStats_stallCount, hstall]
  case events =>
    simp [forwardEvents_of_idex hd, stallEvents_of_loadUse huse, flushEvents_of_not_taken htaken]

/-- Settles O21: the latch is the decoding of the instruction in IF/ID over the register file WB leaves. -/
theorem decodeStage : Obligations.DecodeStage := by
  unfold Obligations.DecodeStage
  intro s t f hh hstep hf hstall htaken
  obtain rfl := eq_clocked_of_step hh hstep
  exact ⟨decoded (wbRegs s) f, newIdEx_of_decode hf hstall htaken, rfl, rfl, fun _ => slotValue_of_slot,
    slotValue_of_no_slot, fun _ => slotValue_of_slot, slotValue_of_no_slot, rfl, rfl, rfl, rfl⟩

/-- Settles O22, by the rules of fetch in an edge without a stall. -/
theorem fetchStage : Obligations.FetchStage := by
  unfold Obligations.FetchStage
  intro s t hh hstep hstall
  obtain rfl := eq_clocked_of_step hh hstep
  exact ⟨fetched_of_no_stall hstall, fun htaken =>
    ⟨(newPc_of_not_taken htaken).trans (pcCandidate_of_no_stall hstall), newIfId_of_fetch hstall htaken⟩⟩

/-- Settles O23: a taken branch redirects to its target and excludes a stall; without one the override does
nothing. -/
theorem branchOverride : Obligations.BranchOverride := by
  unfold Obligations.BranchOverride
  intro s t hinv hh hstep
  obtain rfl := eq_clocked_of_step hh hstep
  refine ⟨fun d hd hbranch heq => ?taken, fun hno => ?notTaken⟩
  case taken =>
    have hin : branchTakenIn s d = true := branchTakenIn_iff.mpr ⟨hbranch, heq⟩
    have htaken : branchTaken s = true := (branchTaken_eq_branchTakenIn hd).trans hin
    have hstall : stalls s = false := not_stalls_of_branchTaken hinv htaken
    obtain ⟨target, htarget, hto⟩ := redirect_of_taken hd (hinv.latchComplete hd) hin
    refine ⟨target, htarget, newPc_of_redirect hto, newIfId_of_taken htaken, newIdEx_of_taken htaken, htaken, ?_⟩
    simp [forwardEvents_of_idex hd, stallEvents_of_no_stall hstall, flushEvents_of_redirect hto,
      squashed_of_no_stall hstall]
  case notTaken =>
    have htaken : branchTaken s = false := Bool.eq_false_iff.mpr fun htaken => by
      obtain ⟨d, hd, -⟩ := (branchTaken_iff s).mp htaken
      exact hno d hd (branchTakenIn_iff.mp ((branchTaken_eq_branchTakenIn hd).symm.trans htaken))
    exact ⟨htaken, newPc_of_not_taken htaken⟩

/-- Settles O26: the new flag is the halt test on the committed latches and the new pc. -/
theorem haltCheck : Obligations.HaltCheck := by
  unfold Obligations.HaltCheck
  intro s t hh hstep
  obtain rfl := eq_clocked_of_step hh hstep
  simp [haltTest, and_assoc]

/-- Settles O27: the three parts of the event list are the FORWARD, STALL and FLUSH events, the last not empty on a
taken branch because the well-formed latch has its target. -/
theorem lastCycleRecord : Obligations.LastCycleRecord := by
  unfold Obligations.LastCycleRecord
  intro s t hinv hh hstep
  obtain rfl := eq_clocked_of_step hh hstep
  refine ⟨rfl, rfl, rfl, rfl, fetched_of_stall, fetched_of_no_stall, rfl, rfl, rfl, forwardEvents s, stallEvents s,
    flushEvents _ s, rfl, forwardEvents_of_bubble, fun d => forwardEvents_of_idex, stallEvents_of_no_stall,
    fun hstall => ?stall, flushEvents_of_not_taken, fun htaken => ?flush⟩
  case stall =>
    obtain ⟨⟨r, load, held⟩, huse⟩ := Option.isSome_iff_exists.mp hstall
    exact ⟨r, load, held, stallEvents_of_loadUse huse⟩
  case flush =>
    obtain ⟨d, hd, -⟩ := (branchTaken_iff s).mp htaken
    obtain ⟨target, -, hto⟩ := redirect_of_taken hd (hinv.latchComplete hd)
      ((branchTaken_eq_branchTakenIn hd).symm.trans htaken)
    exact ⟨d.instr, target, _, flushEvents_of_redirect hto⟩

end Sys2Proof.Machine
end

section
/-! SUPPORT. Proofs of the statements about loading a program, reset and refused calls (spec/45_snapshot_and_host.md
R217, R219, R234): for each host operation first what it answers, then the statements. -/

namespace Sys2Proof.Machine

/-! Raw records (spec/30_encoding.md R81, R83): a well-formed one spells out a typed record -/

/-- A register field that is present and in range holds a register. -/
theorem exists_reg_of_field {n : Option Nat} (hsome : n.isSome = true) (hrange : n.all (· < 32) = true) :
    ∃ r : Reg, n = some r.val := by
  obtain ⟨k, rfl⟩ := Option.isSome_iff_exists.mp hsome
  exact ⟨⟨k, by simpa using hrange⟩, rfl⟩

/-- An immediate field that is present and an Int32 holds a word. -/
theorem exists_word_of_field {v : Option Int} (hsome : v.isSome = true)
    (hrange : v.all (fun v => decide (InInt32 v)) = true) : ∃ w : Word, v = some w.toInt := by
  obtain ⟨k, rfl⟩ := Option.isSome_iff_exists.mp hsome
  obtain ⟨hlo, hhi⟩ : InInt32 k := by simpa using hrange
  exact ⟨BitVec.ofInt 32 k, congrArg some (BitVec.toInt_ofInt_eq_self (by decide) hlo (by omega)).symm⟩

section Formats
variable {rd rs rt : Option Nat} {imm target : Option Int}

/-- The fields of format R, with their registers in range: three registers and nothing else. -/
theorem exists_fields_of_formatR
    (hformat : (rd.isSome && rs.isSome && rt.isSome && imm.isNone && target.isNone) = true)
    (hregs : (rd.all (· < 32) && rs.all (· < 32) && rt.all (· < 32)) = true) :
    ∃ d a b : Reg, rd = some d.val ∧ rs = some a.val ∧ rt = some b.val ∧ imm = none ∧ target = none := by
  simp only [Bool.and_eq_true, Option.isNone_iff_eq_none] at hformat hregs
  obtain ⟨⟨⟨⟨hrd, hrs⟩, hrt⟩, himm⟩, htarget⟩ := hformat
  obtain ⟨⟨hrdRange, hrsRange⟩, hrtRange⟩ := hregs
  obtain ⟨d, hd⟩ := exists_reg_of_field hrd hrdRange
  obtain ⟨a, ha⟩ := exists_reg_of_field hrs hrsRange
  obtain ⟨b, hb⟩ := exists_reg_of_field hrt hrtRange
  exact ⟨d, a, b, hd, ha, hb, himm, htarget⟩

/-- The fields LW, SW and BEQ share, in range: two registers and an immediate, and no `rd`. What their formats say of
`target` differs, and is handed on. -/
theorem exists_fields_of_formatI {targetOk : Bool}
    (hformat : (rd.isNone && rs.isSome && rt.isSome && imm.isSome && targetOk) = true)
    (hregs : (rd.all (· < 32) && rs.all (· < 32) && rt.all (· < 32)) = true)
    (hrange : imm.all (fun v => decide (InInt32 v)) = true) :
    ∃ (a b : Reg) (w : Word), rd = none ∧ rs = some a.val ∧ rt = some b.val ∧ imm = some w.toInt ∧
      targetOk = true := by
  simp only [Bool.and_eq_true, Option.isNone_iff_eq_none] at hformat hregs
  obtain ⟨⟨⟨⟨hrd, hrs⟩, hrt⟩, himm⟩, htarget⟩ := hformat
  obtain ⟨⟨-, hrsRange⟩, hrtRange⟩ := hregs
  obtain ⟨a, ha⟩ := exists_reg_of_field hrs hrsRange
  obtain ⟨b, hb⟩ := exists_reg_of_field hrt hrtRange
  obtain ⟨w, hw⟩ := exists_word_of_field himm hrange
  exact ⟨a, b, w, hrd, ha, hb, hw, htarget⟩

end Formats

/-- The fields of a well-formed raw record are those of a typed instruction at its position, format by format. -/
theorem exists_instr_of_wellFormedAt {k : Nat} {r : RawRecord} (hwf : r.wellFormedAt k = true) :
    ∃ i : Instr, rawOf { instr := i, text := r.text, pc := 4 * (k : Int) } = r := by
  obtain ⟨op, rd, rs, rt, imm, target, text, pc⟩ := r
  simp only [RawRecord.wellFormedAt, Bool.and_eq_true, beq_iff_eq] at hwf
  obtain ⟨⟨⟨⟨rfl, hformat⟩, hregs⟩, hrange⟩, hagrees⟩ := hwf
  cases op with
  | add =>
    obtain ⟨d, a, b, rfl, rfl, rfl, rfl, rfl⟩ := exists_fields_of_formatR hformat hregs
    exact ⟨.add d a b, rfl⟩
  | sub =>
    obtain ⟨d, a, b, rfl, rfl, rfl, rfl, rfl⟩ := exists_fields_of_formatR hformat hregs
    exact ⟨.sub d a b, rfl⟩
  | and =>
    obtain ⟨d, a, b, rfl, rfl, rfl, rfl, rfl⟩ := exists_fields_of_formatR hformat hregs
    exact ⟨.and d a b, rfl⟩
  | or =>
    obtain ⟨d, a, b, rfl, rfl, rfl, rfl, rfl⟩ := exists_fields_of_formatR hformat hregs
    exact ⟨.or d a b, rfl⟩
  | lw =>
    obtain ⟨a, b, w, rfl, rfl, rfl, rfl, htarget⟩ := exists_fields_of_formatI hformat hregs hrange
    obtain rfl := Option.isNone_iff_eq_none.mp htarget
    exact ⟨.lw b a w, rfl⟩
  | sw =>
    obtain ⟨a, b, w, rfl, rfl, rfl, rfl, htarget⟩ := exists_fields_of_formatI hformat hregs hrange
    obtain rfl := Option.isNone_iff_eq_none.mp htarget
    exact ⟨.sw b a w, rfl⟩
  | beq =>
    obtain ⟨a, b, w, rfl, rfl, rfl, rfl, htarget⟩ := exists_fields_of_formatI hformat hregs hrange
    obtain ⟨addr, rfl⟩ := Option.isSome_iff_exists.mp htarget
    obtain rfl : addr = 4 * (k : Int) + 4 + 4 * w.toInt := beq_iff_eq.mp hagrees
    exact ⟨.beq a b w, rfl⟩
  | nop =>
    simp only [RawRecord.fieldsMatchFormat, Bool.and_eq_true, Option.isNone_iff_eq_none] at hformat
    obtain ⟨⟨⟨⟨rfl, rfl⟩, rfl⟩, rfl⟩, rfl⟩ := hformat
    exact ⟨.nop, rfl⟩

/-! Loading (R217) -/

/-- A well-formed raw record loads as the record whose raw form it is. -/
theorem recordAt_of_wellFormedAt {k : Nat} {r : RawRecord} (hwf : r.wellFormedAt k = true) :
    ∃ loaded, recordAt k r = some loaded ∧ rawOf loaded = r := by
  obtain ⟨i, hi⟩ := exists_instr_of_wellFormedAt hwf
  exact ⟨_, hi ▸ Laws.RawRoundTrip.holds i k r.text, hi⟩

theorem recordAt_of_not_wellFormedAt {k : Nat} {r : RawRecord} (hwf : r.wellFormedAt k = false) :
    recordAt k r = none := by simp [recordAt, hwf]

/-- A well-formed list loads record by record. -/
theorem recordsFrom_of_wellFormed {k : Nat} {l : List RawRecord} (hwf : rawWellFormedFrom k l = true) :
    ∃ program, recordsFrom k l = some program ∧ program.map rawOf = l := by
  induction l generalizing k with
  | nil => exact ⟨[], rfl, rfl⟩
  | cons r rest ih =>
    obtain ⟨hr, hrest⟩ := Bool.and_eq_true_iff.mp hwf
    obtain ⟨loaded, hloaded, hraw⟩ := recordAt_of_wellFormedAt hr
    obtain ⟨program, hprogram, hraws⟩ := ih hrest
    exact ⟨loaded :: program, by rw [recordsFrom, hloaded, hprogram], by rw [List.map_cons, hraw, hraws]⟩

/-- One ill-formed record keeps the whole list from loading. -/
theorem recordsFrom_of_not_wellFormed {k : Nat} {l : List RawRecord} (hwf : rawWellFormedFrom k l = false) :
    recordsFrom k l = none := by
  induction l generalizing k with
  | nil => cases hwf
  | cons r rest ih =>
    rcases Bool.and_eq_false_iff.mp hwf with hr | hrest
    · rw [recordsFrom, recordAt_of_not_wellFormedAt hr]
    · cases hloaded : recordAt k r <;> rw [recordsFrom, hloaded, ih hrest]

section Calls
variable {s : State} {l : List RawRecord} {reason : Refusal}

theorem loadProgram_of_wellFormed (hwf : rawProgramWellFormed l = true) :
    ∃ program, program.map rawOf = l ∧ loadProgram l s = (State.fresh s.params program, .done) := by
  obtain ⟨program, hprogram, hraws⟩ := recordsFrom_of_wellFormed hwf
  exact ⟨program, hraws, by rw [loadProgram, programOf, hprogram]⟩

theorem loadProgram_of_not_wellFormed (hwf : rawProgramWellFormed l = false) :
    loadProgram l s = (s, .refused .illFormedProgram) := by
  rw [loadProgram, programOf, recordsFrom_of_not_wellFormed hwf]

/-- A text with parse errors is answered with the parse result (R218). -/
theorem loadProgramFromSource_of_errors {text : String} (herrors : (parse text).errors ≠ []) :
    loadProgramFromSource text s = (s, .parsed (parse text)) := by
  simp [loadProgramFromSource, herrors]

/-- An error-free parse that is a well-formed program is loaded (R218). -/
theorem loadProgramFromSource_of_wellFormed {text : String} (herrors : (parse text).errors = [])
    (hwf : rawProgramWellFormed (parse text).instructions = true) :
    ∃ program, program.map rawOf = (parse text).instructions ∧
      loadProgramFromSource text s = (State.fresh s.params program, .parsed (parse text)) := by
  obtain ⟨program, hraws, hload⟩ := loadProgram_of_wellFormed (s := s) hwf
  exact ⟨program, hraws, by simp [loadProgramFromSource, herrors, hload]⟩

/-- An error-free parse that is no well-formed program is refused by the load (R111, R218). -/
theorem loadProgramFromSource_of_not_wellFormed {text : String} (herrors : (parse text).errors = [])
    (hwf : rawProgramWellFormed (parse text).instructions = false) :
    loadProgramFromSource text s = (s, .refused .illFormedProgram) := by
  simp [loadProgramFromSource, herrors, loadProgram_of_not_wellFormed hwf]

/-! Refused calls (R234): the state and the reason an operation that can refuse gives when it does -/

theorem loadProgram_of_refused (hrefused : (loadProgram l s).2 = .refused reason) :
    (loadProgram l s).1 = s ∧ reason = .illFormedProgram := by
  cases hwf : rawProgramWellFormed l with
  | true =>
    obtain ⟨program, -, hload⟩ := loadProgram_of_wellFormed (s := s) hwf
    simp [hload] at hrefused
  | false => simpa [loadProgram_of_not_wellFormed hwf, eq_comm] using hrefused

theorem loadProgramFromSource_of_refused {text : String}
    (hrefused : (loadProgramFromSource text s).2 = .refused reason) :
    (loadProgramFromSource text s).1 = s ∧ reason = .illFormedProgram := by
  by_cases herrors : (parse text).errors = []
  · cases hwf : rawProgramWellFormed (parse text).instructions with
    | true =>
      obtain ⟨program, -, hload⟩ := loadProgramFromSource_of_wellFormed (s := s) herrors hwf
      simp [hload] at hrefused
    | false => simpa [loadProgramFromSource_of_not_wellFormed herrors hwf, eq_comm] using hrefused
  · simp [loadProgramFromSource_of_errors herrors] at hrefused

theorem restoreState_of_refused {e : EngineState} (hrefused : (restoreState e s).2 = .refused reason) :
    (restoreState e s).1 = s ∧ reason = .illFormedState := by
  cases hwf : (installed e s).wellFormed with
  | true => simp [restoreState, hwf] at hrefused
  | false => simpa [restoreState, hwf, eq_comm] using hrefused

/-- A refused step of the host is a refused clock edge. -/
theorem stepEngine_of_refused (hrefused : (stepEngine s).2 = .refused reason) :
    (stepEngine s).1 = s ∧ step s = .refused reason := by
  cases hstep : step s with
  | next t => simp [stepEngine, hstep] at hrefused
  | refused r => simpa [stepEngine, hstep] using hrefused
  | fault f => cases f

/-- A well-formed machine steps: its ID/EX latch is complete (R44). -/
theorem State.Inv.exists_step (hinv : s.Inv) : ∃ t, step s = .next t := by
  rw [step_eq_edge]
  cases hh : s.halted with
  | true => exact ⟨s, edge_halted hh⟩
  | false =>
    have hcomplete : s.idex.all Machine.latchComplete = true := by
      cases hd : s.idex with
      | none => rfl
      | some d => exact hinv.latchComplete hd
    exact ⟨_, edge_next hh hcomplete⟩

/-- A refused call leaves the state alone, and is a load of an ill-formed program, a restore of an ill-formed state,
or a step whose edge is refused. -/
theorem hostCall_of_refused {c : HostCall} (hrefused : (hostCall c s).2 = .refused reason) :
    (hostCall c s).1 = s ∧
      ((reason = .illFormedProgram ∧ ((∃ l, c = .loadProgram l) ∨ ∃ text, c = .loadProgramFromSource text)) ∨
        (reason = .illFormedState ∧ ∃ e, c = .restoreState e) ∨ step s = .refused reason) := by
  cases c with
  | loadProgram l =>
    obtain ⟨hsame, hreason⟩ := loadProgram_of_refused hrefused
    exact ⟨hsame, .inl ⟨hreason, .inl ⟨l, rfl⟩⟩⟩
  | loadProgramFromSource text =>
    obtain ⟨hsame, hreason⟩ := loadProgramFromSource_of_refused hrefused
    exact ⟨hsame, .inl ⟨hreason, .inr ⟨text, rfl⟩⟩⟩
  | restoreState e =>
    obtain ⟨hsame, hreason⟩ := restoreState_of_refused hrefused
    exact ⟨hsame, .inr (.inl ⟨hreason, e, rfl⟩)⟩
  | step =>
    obtain ⟨hsame, hstep⟩ := stepEngine_of_refused hrefused
    exact ⟨hsame, .inr (.inr hstep)⟩
  | reset | getSnapshot | exportState => cases hrefused

end Calls

/-! Reset (R219) -/

section ResetValues
variable (p : Params) (program : List Record)

theorem readReg_fresh (r : Reg) : readReg (State.fresh p program).x r = 0 := by simp [readReg]

theorem loadWord_fresh (k : Nat) : loadWord (State.fresh p program).mem k = 0 := rfl

end ResetValues

/-! The statements -/

/-- Settles O50: a well-formed list loads record by record, each record the one whose raw form it is; one ill-formed
record refuses the list. -/
theorem loadProgramRule : Obligations.LoadProgramRule := by
  unfold Obligations.LoadProgramRule
  exact fun l s => ⟨loadProgram_of_wellFormed, loadProgram_of_not_wellFormed⟩

/-- Settles O54: reset is the fresh state around the kept or the empty program. -/
theorem resetRule : Obligations.ResetRule := by
  unfold Obligations.ResetRule
  exact fun b s => ⟨State.fresh s.params (if b = true then [] else s.program), rfl, fresh_program _ _,
    fresh_params _ _, fresh_pc _ _, readReg_fresh _ _, loadWord_fresh _ _, fresh_halted _ _, fresh_stats _ _,
    fresh_ifid _ _, fresh_idex _ _, fresh_exmem _ _, fresh_memwb _ _, fresh_fetchInstr _ _, fresh_last _ _⟩

/-- Settles O57: the only other refusal is a step's, and a well-formed machine steps. -/
theorem refusalsChangeNothing : Obligations.RefusalsChangeNothing := by
  unfold Obligations.RefusalsChangeNothing
  refine ⟨fun c s r hrefused => (hostCall_of_refused hrefused).1, fun c s r hinv hrefused => ?reason,
    fun text s herrors => congrArg Prod.snd (loadProgramFromSource_of_errors herrors)⟩
  case reason =>
    obtain ⟨-, hprogram | hstate | hstep⟩ := hostCall_of_refused hrefused
    · exact .inl hprogram
    · exact .inr hstate
    · obtain ⟨t, hnext⟩ := hinv.exists_step
      cases hnext.symm.trans hstep

end Sys2Proof.Machine
end

section
/-! SUPPORT. Proofs of the statements about the reference binary form (spec/30_encoding.md R115 to R121): the rows of
the encoding table exclude each other, what the fields of an encoded word are, and which words a row covers. -/

namespace Sys2Proof

/-! The rows of the table (R117, R119) -/

/-- Two different rows disagree on a bit that both masks keep. -/
theorem eq_of_patterns_agree :
    ∀ r₁ ∈ encodingTable, ∀ r₂ ∈ encodingTable, r₁.pattern &&& r₂.mask = r₂.pattern &&& r₁.mask → r₁ = r₂ := by
  decide

theorem EncodingRow.covers_iff {row : EncodingRow} {w : Word} : row.covers w = true ↔ w &&& row.mask = row.pattern := by
  simp [EncodingRow.covers]

/-- Settles O3: what two covering rows keep of the word under both masks is the same, and no two rows' patterns agree
there. -/
theorem encodingRowsAreDisjoint : Obligations.EncodingRowsAreDisjoint := by
  unfold Obligations.EncodingRowsAreDisjoint
  intro w r₁ h₁ r₂ h₂ hcovers₁ hcovers₂
  refine eq_of_patterns_agree r₁ h₁ r₂ h₂ ?_
  rw [← EncodingRow.covers_iff.mp hcovers₁, ← EncodingRow.covers_iff.mp hcovers₂, BitVec.and_assoc, BitVec.and_assoc,
    BitVec.and_comm r₁.mask]

/-- A word decodes by any row that covers it, for there is only one. -/
theorem decode_of_covers {row : EncodingRow} {w : Word} (hrow : row ∈ encodingTable) (hcovers : row.covers w = true) :
    decode w = .ok (fromFields row.op w) := by
  have hsome : (encodingTable.find? (·.covers w)).isSome = true := List.find?_isSome.mpr ⟨row, hrow, hcovers⟩
  obtain ⟨found, hfound⟩ := Option.isSome_iff_exists.mp hsome
  have hcovers' : found.covers w = true := List.find?_some (p := fun r => EncodingRow.covers r w) hfound
  obtain rfl := encodingRowsAreDisjoint w found (List.mem_of_find?_eq_some hfound) row hrow hcovers' hcovers
  rw [decode, hfound]

/-- A word that decodes is covered by a row, and the instruction is what the row's opcode makes of its fields. -/
theorem covers_of_decode {w : Word} {i : Instr} (h : decode w = .ok i) :
    ∃ row ∈ encodingTable, row.covers w = true ∧ fromFields row.op w = i := by
  unfold decode at h
  split at h
  · next row hfound =>
    have hcovers : row.covers w = true := List.find?_some (p := fun r => EncodingRow.covers r w) hfound
    exact ⟨row, List.mem_of_find?_eq_some hfound, hcovers, Except.ok.inj h⟩
  · cases h

/-! Words as rows of fields (R115, R116) -/

/-- The six fields of a word in the R-format layout. -/
theorem extract_formatR (opcode funct : BitVec 6) (rs rt rd shamt : BitVec 5) {w : Word}
    (hw : w = opcode ++ rs ++ rt ++ rd ++ shamt ++ funct) :
    w.extractLsb' 26 6 = opcode ∧ w.extractLsb' 21 5 = rs ∧ w.extractLsb' 16 5 = rt ∧ w.extractLsb' 11 5 = rd ∧
      w.extractLsb' 6 5 = shamt ∧ w.extractLsb' 0 6 = funct := by
  subst hw
  refine ⟨?_, ?_, ?_, ?_, ?_, ?_⟩ <;>
    simp only [BitVec.extractLsb'_append_eq_of_le, BitVec.extractLsb'_append_eq_of_add_le,
      BitVec.extractLsb'_eq_self, Nat.reduceLeDiff, Nat.le_refl, Nat.reduceSub, -Nat.reduceAdd]

/-- The four fields of a word in the I-format layout. -/
theorem extract_formatI (opcode : BitVec 6) (rs rt : BitVec 5) (imm16 : BitVec 16) {w : Word}
    (hw : w = opcode ++ rs ++ rt ++ imm16) :
    w.extractLsb' 26 6 = opcode ∧ w.extractLsb' 21 5 = rs ∧ w.extractLsb' 16 5 = rt ∧ w.extractLsb' 0 16 = imm16 := by
  subst hw
  refine ⟨?_, ?_, ?_, ?_⟩ <;>
    simp only [BitVec.extractLsb'_append_eq_of_le, BitVec.extractLsb'_append_eq_of_add_le,
      BitVec.extractLsb'_eq_self, Nat.reduceLeDiff, Nat.le_refl, Nat.reduceSub, -Nat.reduceAdd]

/-- Every word is its six R-format fields. -/
theorem formatR_of_extract (w : Word) :
    (w.extractLsb' 26 6 ++ w.extractLsb' 21 5 ++ w.extractLsb' 16 5 ++ w.extractLsb' 11 5 ++ w.extractLsb' 6 5 ++
      w.extractLsb' 0 6 : Word) = w := by
  rw [BitVec.extractLsb'_append_extractLsb'_eq_extractLsb' (by rfl),
    BitVec.extractLsb'_append_extractLsb'_eq_extractLsb' (by rfl),
    BitVec.extractLsb'_append_extractLsb'_eq_extractLsb' (by rfl),
    BitVec.extractLsb'_append_extractLsb'_eq_extractLsb' (by rfl),
    BitVec.extractLsb'_append_extractLsb'_eq_extractLsb' (by rfl)]
  exact BitVec.extractLsb'_eq_self

/-- Every word is its four I-format fields. -/
theorem formatI_of_extract (w : Word) :
    (w.extractLsb' 26 6 ++ w.extractLsb' 21 5 ++ w.extractLsb' 16 5 ++ w.extractLsb' 0 16 : Word) = w := by
  rw [BitVec.extractLsb'_append_extractLsb'_eq_extractLsb' (by rfl),
    BitVec.extractLsb'_append_extractLsb'_eq_extractLsb' (by rfl),
    BitVec.extractLsb'_append_extractLsb'_eq_extractLsb' (by rfl)]
  exact BitVec.extractLsb'_eq_self

theorem and_maskR (funct : BitVec 6) (rd rs rt : Reg) :
    encodeR funct rd rs rt &&& 0xFC0007FF = encodeR funct 0 0 0 := by
  have hmask : (0xFC0007FF : Word) = 63#6 ++ 0#5 ++ 0#5 ++ 0#5 ++ 31#5 ++ 63#6 := rfl
  have hfunct : funct &&& 63#6 = funct := BitVec.and_allOnes
  unfold encodeR
  rw [hmask]
  iterate 5 rw [BitVec.and_append]
  rw [hfunct]
  simp only [BitVec.and_zero]
  rfl

theorem and_maskI (opcode : BitVec 6) (rs rt : Reg) (imm : Word) :
    encodeI opcode rs rt imm &&& 0xFC000000 = encodeI opcode 0 0 0 := by
  have hmask : (0xFC000000 : Word) = 63#6 ++ 0#5 ++ 0#5 ++ 0#16 := rfl
  have hopcode : opcode &&& 63#6 = opcode := BitVec.and_allOnes
  unfold encodeI
  rw [hmask]
  iterate 3 rw [BitVec.and_append]
  rw [hopcode]
  simp only [BitVec.and_zero]
  rfl

/-! The fields of an encoded word -/

theorem fields_encodeR (funct : BitVec 6) (rd rs rt : Reg) :
    fieldRd (encodeR funct rd rs rt) = rd ∧ fieldRs (encodeR funct rd rs rt) = rs ∧
      fieldRt (encodeR funct rd rs rt) = rt := by
  have hlayout : encodeR funct rd rs rt = 0#6 ++ regBits rs ++ regBits rt ++ regBits rd ++ 0#5 ++ funct := rfl
  obtain ⟨-, hrs, hrt, hrd, -⟩ := extract_formatR _ _ _ _ _ _ hlayout
  exact ⟨congrArg BitVec.toFin hrd, congrArg BitVec.toFin hrs, congrArg BitVec.toFin hrt⟩

theorem fields_encodeI (opcode : BitVec 6) (rs rt : Reg) (imm : Word) :
    fieldRs (encodeI opcode rs rt imm) = rs ∧ fieldRt (encodeI opcode rs rt imm) = rt ∧
      fieldImm (encodeI opcode rs rt imm) = (imm.setWidth 16).signExtend 32 := by
  have hlayout : encodeI opcode rs rt imm = opcode ++ regBits rs ++ regBits rt ++ imm.setWidth 16 := rfl
  obtain ⟨-, hrs, hrt, himm⟩ := extract_formatI _ _ _ _ hlayout
  exact ⟨congrArg BitVec.toFin hrs, congrArg BitVec.toFin hrt, congrArg (BitVec.signExtend 32) himm⟩

/-- A word with the opcode, shamt and funct of an R-format instruction is the encoding of its own fields. -/
theorem encodeR_fields {funct : BitVec 6} {w : Word} (h : w &&& 0xFC0007FF = encodeR funct 0 0 0) :
    encodeR funct (fieldRd w) (fieldRs w) (fieldRt w) = w := by
  have hkept := extract_formatR 0 funct 0 0 0 0 (h : w &&& 0xFC0007FF = _)
  simp only [BitVec.extractLsb'_and] at hkept
  obtain ⟨hopcode, -, -, -, hshamt, hfunct⟩ := hkept
  have hopcode : w.extractLsb' 26 6 = 0 := BitVec.and_allOnes.symm.trans hopcode
  have hshamt : w.extractLsb' 6 5 = 0 := BitVec.and_allOnes.symm.trans hshamt
  have hfunct : w.extractLsb' 0 6 = funct := BitVec.and_allOnes.symm.trans hfunct
  have hw := formatR_of_extract w
  rw [hopcode, hshamt, hfunct] at hw
  exact hw

theorem setWidth_signExtend (v : BitVec 16) : (v.signExtend 32).setWidth 16 = v := by
  ext k hk
  simp [BitVec.getElem_signExtend, show k < 32 by omega, hk]

/-- A word with the opcode of an I-format instruction is the encoding of its own fields. -/
theorem encodeI_fields {opcode : BitVec 6} {w : Word} (h : w &&& 0xFC000000 = encodeI opcode 0 0 0) :
    encodeI opcode (fieldRs w) (fieldRt w) (fieldImm w) = w := by
  have hkept := extract_formatI opcode 0 0 0 (h : w &&& 0xFC000000 = _)
  simp only [BitVec.extractLsb'_and] at hkept
  obtain ⟨hopcode, -⟩ := hkept
  have hopcode : w.extractLsb' 26 6 = opcode := BitVec.and_allOnes.symm.trans hopcode
  have hw := formatI_of_extract w
  rw [hopcode, ← setWidth_signExtend (w.extractLsb' 0 16)] at hw
  exact hw

/-! Immediates of 16 bits (R116, R120) -/

theorem signExtend_setWidth_of_fits {imm : Word} (hlo : -32768 ≤ imm.toInt) (hhi : imm.toInt ≤ 32767) :
    (imm.setWidth 16).signExtend 32 = imm := by
  refine BitVec.eq_of_toInt_eq ?_
  rw [BitVec.toInt_signExtend_of_le (by decide), BitVec.toInt_setWidth, Int.bmod_def]
  rw [BitVec.toInt_eq_toNat_cond] at hlo hhi ⊢
  omega

theorem fieldImm_fits (w : Word) : -32768 ≤ (fieldImm w).toInt ∧ (fieldImm w).toInt ≤ 32767 := by
  have hlo := BitVec.le_toInt (w.extractLsb' 0 16)
  have hhi := BitVec.toInt_lt (x := w.extractLsb' 0 16)
  rw [fieldImm, BitVec.toInt_signExtend_of_le (by decide)]
  omega

theorem hasBinaryForm_fromFields (op : Op) (w : Word) : (fromFields op w).hasBinaryForm = true := by
  cases op with
  | lw | sw | beq => exact decide_eq_true (fieldImm_fits w)
  | add | sub | and | or | nop => rfl

/-- An instruction has no binary form exactly if it has an immediate outside 16 signed bits (R120). -/
theorem encode_eq_none_iff {i : Instr} :
    encode i = none ↔ ∃ imm, Machine.immOf i = some imm ∧ (imm.toInt < -32768 ∨ 32767 < imm.toInt) := by
  cases i with
  | lw _ _ imm | sw _ _ imm | beq _ _ imm =>
    have houtside : (-32768 ≤ imm.toInt → 32767 < imm.toInt) ↔ (imm.toInt < -32768 ∨ 32767 < imm.toInt) := by omega
    simpa [encode, Instr.hasBinaryForm, Machine.immOf] using houtside
  | add | sub | and | or | nop => simp [encode, Instr.hasBinaryForm, Machine.immOf]

/-! The round trips -/

theorem decode_encodeR {op : Op} {funct : BitVec 6}
    (hrow : (⟨0xFC0007FF, encodeR funct 0 0 0, op⟩ : EncodingRow) ∈ encodingTable) (rd rs rt : Reg) :
    decode (encodeR funct rd rs rt) = .ok (fromFields op (encodeR funct rd rs rt)) :=
  decode_of_covers hrow (EncodingRow.covers_iff.mpr (and_maskR funct rd rs rt))

theorem decode_encodeI {op : Op} {opcode : BitVec 6}
    (hrow : (⟨0xFC000000, encodeI opcode 0 0 0, op⟩ : EncodingRow) ∈ encodingTable) (rs rt : Reg) (imm : Word) :
    decode (encodeI opcode rs rt imm) = .ok (fromFields op (encodeI opcode rs rt imm)) :=
  decode_of_covers hrow (EncodingRow.covers_iff.mpr (and_maskI opcode rs rt imm))

/-- The bits of an instruction decode by the row of its opcode. -/
theorem decode_bits (i : Instr) : decode i.bits = .ok (fromFields (Machine.opOf i) i.bits) := by
  cases i with
  | add rd rs rt => exact decode_encodeR (op := .add) (by decide) rd rs rt
  | sub rd rs rt => exact decode_encodeR (op := .sub) (by decide) rd rs rt
  | and rd rs rt => exact decode_encodeR (op := .and) (by decide) rd rs rt
  | or rd rs rt => exact decode_encodeR (op := .or) (by decide) rd rs rt
  | lw rt rs imm => exact decode_encodeI (op := .lw) (by decide) rs rt imm
  | sw rt rs imm => exact decode_encodeI (op := .sw) (by decide) rs rt imm
  | beq rs rt imm => exact decode_encodeI (op := .beq) (by decide) rs rt imm
  | nop => rfl

/-- The fields of an instruction's bits are its operands, the immediate if it fits 16 signed bits. -/
theorem fromFields_bits {i : Instr} (h : i.hasBinaryForm = true) : fromFields (Machine.opOf i) i.bits = i := by
  cases i with
  | add rd rs rt | sub rd rs rt | and rd rs rt | or rd rs rt =>
    simp [fromFields, Machine.opOf, Instr.bits, fields_encodeR]
  | lw _ _ imm | sw _ _ imm | beq _ _ imm =>
    obtain ⟨hlo, hhi⟩ := of_decide_eq_true h
    simp [fromFields, Machine.opOf, Instr.bits, fields_encodeI, signExtend_setWidth_of_fits hlo hhi]
  | nop => rfl

/-- What a row makes of the fields of a word it covers has that word as its bits. -/
theorem bits_fromFields {row : EncodingRow} {w : Word} (hrow : row ∈ encodingTable) (hcovers : row.covers w = true) :
    (fromFields row.op w).bits = w := by
  have hkept := EncodingRow.covers_iff.mp hcovers
  simp only [encodingTable, List.mem_cons, List.not_mem_nil, or_false] at hrow
  rcases hrow with rfl | rfl | rfl | rfl | rfl | rfl | rfl | rfl
  · exact encodeR_fields hkept
  · exact encodeR_fields hkept
  · exact encodeR_fields hkept
  · exact encodeR_fields hkept
  · exact encodeI_fields hkept
  · exact encodeI_fields hkept
  · exact encodeI_fields hkept
  · exact (BitVec.and_allOnes.symm.trans hkept).symm

/-- Settles O1: the row of the opcode covers the bits, and their fields are the operands. -/
theorem decodeOfEncodeIsIdentity : Obligations.DecodeOfEncodeIsIdentity := by
  unfold Obligations.DecodeOfEncodeIsIdentity
  exact fun i h => ⟨i.bits, if_pos h, (decode_bits i).trans (congrArg Except.ok (fromFields_bits h))⟩

/-- Settles O2: a decoded word is covered by a row, and a row gives every bit of the word back. -/
theorem encodeOfDecodeIsIdentity : Obligations.EncodeOfDecodeIsIdentity := by
  unfold Obligations.EncodeOfDecodeIsIdentity
  refine ⟨fun w i h => ?_, fun i => encode_eq_none_iff⟩
  obtain ⟨row, hrow, hcovers, rfl⟩ := covers_of_decode h
  rw [encode, if_pos (hasBinaryForm_fromFields row.op w), bits_fromFields hrow hcovers]

/-- Settles O4, word by word. -/
theorem workedEncodingsHold : Obligations.WorkedEncodingsHold := by
  unfold Obligations.WorkedEncodingsHold
  decide

end Sys2Proof
end

section
/-! SUPPORT. Proofs of the statements about the tables decode reads (spec/30_encoding.md R86 to R89), register 0
(spec/10_state.md R24) and data memory (spec/20_memory.md R63 to R65). -/

namespace Sys2Proof.Machine

/-- Settles O5: every row of the tables, as the model writes it. -/
theorem decodeTables : Obligations.DecodeTables := by
  unfold Obligations.DecodeTables
  refine ⟨fun rd rs rt p hp => ?registers, fun _ _ _ => ⟨rfl, rfl, rfl, rfl⟩, fun _ _ _ => ⟨rfl, rfl, rfl, rfl⟩,
    fun _ _ _ => ⟨rfl, rfl, rfl, rfl⟩, rfl, rfl, rfl, rfl⟩
  case registers =>
    simp only [List.mem_cons, List.not_mem_nil, or_false] at hp
    rcases hp with rfl | rfl | rfl | rfl <;> exact ⟨rfl, rfl, rfl, rfl⟩

/-- Settles O9: only WB writes registers, and it discards a write to register 0. -/
theorem registerZeroNeverChanges : Obligations.RegisterZeroNeverChanges := by
  unfold Obligations.RegisterZeroNeverChanges
  intro s t hstep
  rcases step_cases hstep with ⟨-, rfl⟩ | ⟨-, -, rfl⟩
  · rfl
  · exact wbRegs_zero s

/-! The word index (R63) -/

section WordIndex
variable {p : Params} {a : Word}

theorem boundedIndex_of_inRange {words : Nat} {k : Int} (hlo : 0 ≤ k) (hhi : k < words) :
    boundedIndex words k = some k.toNat := if_pos ⟨hlo, hhi⟩

theorem boundedIndex_of_outOfRange {words : Nat} {k : Int} (h : ¬(0 ≤ k ∧ k < words)) : boundedIndex words k = none :=
  if_neg h

/-- An address selects a word by its floored quotient if it is aligned or truncated. -/
theorem wordIndex_of_bounded (h : a.toInt % 4 = 0 ∨ p.misalign = .truncate) :
    wordIndex p a = boundedIndex p.memWords (a.toInt / 4) := by
  rcases h with haligned | htruncate
  · rw [wordIndex, if_pos haligned]
  · rw [wordIndex, htruncate]
    exact ite_self _

theorem wordIndex_of_misaligned (hmis : a.toInt % 4 ≠ 0) (hpolicy : p.misalign = .outOfRange) :
    wordIndex p a = none := by
  rw [wordIndex, if_neg hmis, hpolicy]

/-- A misaligned address that is not truncated is out of range. -/
theorem misalign_eq_outOfRange (h : p.misalign ≠ .truncate) : p.misalign = .outOfRange := by
  cases hp : p.misalign with
  | truncate => exact absurd hp h
  | outOfRange => rfl

theorem wordIndex_of_neg (hneg : a.toInt < 0) : wordIndex p a = none := by
  by_cases h : a.toInt % 4 = 0 ∨ p.misalign = .truncate
  · rw [wordIndex_of_bounded h, boundedIndex_of_outOfRange (by omega)]
  · obtain ⟨hmis, hpolicy⟩ := not_or.mp h
    exact wordIndex_of_misaligned hmis (misalign_eq_outOfRange hpolicy)

/-- Read as unsigned, a negative address lies at or past 2^31, and so past every memory of at most 2^29 words (R8). -/
theorem boundedIndex_unsigned (hbounds : p.InBounds) :
    boundedIndex p.memWords (a.toInt / 4) = if a.toNat / 4 < p.memWords then some (a.toNat / 4) else none := by
  have hwords : p.memWords ≤ 536870912 := hbounds.2
  rw [BitVec.toInt_eq_toNat_cond]
  split
  · next hpos =>
    split
    · rw [boundedIndex_of_inRange (by omega) (by omega)]
      congr 1
    · rw [boundedIndex_of_outOfRange (by omega)]
  · next hneg =>
    rw [if_neg (by omega), boundedIndex_of_outOfRange (by omega)]

theorem toInt_emod_four : a.toInt % 4 = 0 ↔ a.toNat % 4 = 0 := by
  rw [BitVec.toInt_eq_toNat_cond]
  split <;> omega

end WordIndex

/-- Settles O10, clause by clause; the unsigned reading agrees modulo 4 and in every memory within bounds. -/
theorem wordIndexRule : Obligations.WordIndexRule := by
  unfold Obligations.WordIndexRule
  intro p a
  refine ⟨fun haligned hlo hhi => ?_, fun haligned hhi => ?_, fun _ htruncate hlo hhi => ?_,
    fun _ htruncate hhi => ?_, wordIndex_of_misaligned, wordIndex_of_neg, fun hbounds => ?unsigned⟩
  · rw [wordIndex_of_bounded (.inl haligned), boundedIndex_of_inRange (by omega) hhi]
  · rw [wordIndex_of_bounded (.inl haligned), boundedIndex_of_outOfRange (by omega)]
  · rw [wordIndex_of_bounded (.inr htruncate), boundedIndex_of_inRange (by omega) hhi]
  · rw [wordIndex_of_bounded (.inr htruncate), boundedIndex_of_outOfRange (by omega)]
  case unsigned =>
    simp only [← toInt_emod_four]
    split
    · next h => rw [wordIndex_of_bounded h, boundedIndex_unsigned hbounds]
    · next h =>
      obtain ⟨hmis, hpolicy⟩ := not_or.mp h
      exact wordIndex_of_misaligned hmis (misalign_eq_outOfRange hpolicy)

/-! Reads and writes (R64, R65) -/

section ReadWrite
variable {p : Params} {m : Memory} {a : Word}

theorem memRead_of_index {k : Nat} (h : wordIndex p a = some k) : memRead p m a = loadWord m k := by rw [memRead, h]

theorem memRead_of_outOfRange (h : wordIndex p a = none) : memRead p m a = 0 := by rw [memRead, h]

theorem memWrite_of_index {k : Nat} (v : Word) (h : wordIndex p a = some k) : memWrite p m a v = storeWord m k v := by
  rw [memWrite, h]

theorem memWrite_of_outOfRange (v : Word) (h : wordIndex p a = none) : memWrite p m a v = m := by rw [memWrite, h]

end ReadWrite

/-- Settles O11, by the rules of the two primitives and of a stored word. -/
theorem memoryReadAndWrite : Obligations.MemoryReadAndWrite := by
  unfold Obligations.MemoryReadAndWrite
  intro p m a v hwf
  refine ⟨fun k hk => ⟨memRead_of_index hk, fun j => ?_⟩, fun hout =>
    ⟨memRead_of_outOfRange hout, memWrite_of_outOfRange v hout⟩⟩
  rw [memWrite_of_index v hk]
  exact loadWord_storeWord hwf k v j

end Sys2Proof.Machine
end

section
/-! SUPPORT. Proofs of the statements about what a step is and what it can answer (spec/40_pipeline.md R131, R132,
R147, R157, R158; spec/60_exceptions.md R251), about a word placed at the pc, and about the snapshot after a step
(spec/45_snapshot_and_host.md R225 to R229). -/

namespace Sys2Proof.Machine

/-- Settles O6: with a record at the pc the step is the arm of its instruction, with a bubble the edge with it. -/
theorem stepRunsTheFetchedInstruction : Obligations.StepRunsTheFetchedInstruction := by
  unfold Obligations.StepRunsTheFetchedInstruction
  exact ⟨fun s r hfetch => by rw [step, hfetch], fun s hbubble => by rw [step, hbubble]⟩

/-- An instruction's step is the edge with the record it presents. -/
theorem exec_eq_edge (i : Instr) (s : State) : exec i s = edge (some (presented i s)) s := exec_eq_clock i s

theorem edge_keeps_program_params {v : Option Record} {s t : State} (h : edge v s = .next t) :
    t.program = s.program ∧ t.params = s.params := by
  rcases edge_cases h with ⟨-, rfl⟩ | ⟨-, -, rfl⟩ <;> exact ⟨rfl, rfl⟩

/-- Settles O31: both are edges, and an edge keeps the two. -/
theorem stepKeepsProgramAndParameters : Obligations.StepKeepsProgramAndParameters := by
  unfold Obligations.StepKeepsProgramAndParameters
  rintro i s t (hstep | hexec)
  · exact edge_keeps_program_params (step_eq_edge s ▸ hstep)
  · exact edge_keeps_program_params (exec_eq_edge i s ▸ hexec)

/-! Well-formed machines step (R251) -/

theorem State.Inv.all_latchComplete {s : State} (hinv : s.Inv) : s.idex.all Machine.latchComplete = true := by
  cases hd : s.idex with
  | none => rfl
  | some d => exact hinv.latchComplete hd

theorem State.Inv.exists_edge {s : State} (hinv : s.Inv) (v : Option Record) : ∃ t, edge v s = .next t := by
  cases hh : s.halted with
  | true => exact ⟨s, edge_halted hh⟩
  | false => exact ⟨_, edge_next hh hinv.all_latchComplete⟩

/-- Settles O36: every edge of a well-formed machine answers, whatever enters the pipeline. -/
theorem wellFormedStepAnswers : Obligations.WellFormedStepAnswers := by
  unfold Obligations.WellFormedStepAnswers
  refine fun s hinv => ⟨hinv.exists_step, fun i => ?_⟩
  rw [exec_eq_edge]
  exact hinv.exists_edge _

/-! Halted machines (R131) -/

theorem step_halted {s : State} (hh : s.halted = true) : step s = .next s := by
  rw [step_eq_edge]
  exact edge_halted hh

/-- A run of one step more, after a step that answers. -/
theorem run_succ_of_next (M : Host.Core) {n : Nat} {s t : M.State} (hstep : M.step s = .next t) :
    M.run (n + 1) s = M.run n t := by
  rw [Host.Core.run, hstep]

theorem core_run_succ {n : Nat} {s t : State} (hstep : step s = .next t) : core.run (n + 1) s = core.run n t :=
  run_succ_of_next core hstep

theorem core_run_halted {s : State} (hh : s.halted = true) (n : Nat) : core.run n s = .next s := by
  induction n with
  | zero => rfl
  | succ n ih => rw [core_run_succ (step_halted hh), ih]

/-- Settles O30: a step of a halted machine is no change, and the other two calls only read. -/
theorem haltedIsStable : Obligations.HaltedIsStable := by
  unfold Obligations.HaltedIsStable
  refine fun s hh => ⟨core_run_halted hh, ?_, rfl, rfl⟩
  show (stepEngine s).1 = s
  rw [stepEngine, step_halted hh]

/-! Stalls and flushes (R147, R157, R158) -/

/-- Without an instruction in IF/ID, or without one in ID/EX, nothing stalls (R144). -/
theorem not_stalls_of_bubble {s : State} (h : s.ifid = none ∨ s.idex = none) : stalls s = false := by
  refine Bool.eq_false_iff.mpr fun hstall => ?_
  obtain ⟨f, d, r, hf, hd, -⟩ := stalls_iff.mp hstall
  rcases h with hnone | hnone
  · cases hnone.symm.trans hf
  · cases hnone.symm.trans hd

theorem not_branchTaken_of_bubble {s : State} (h : s.idex = none) : branchTaken s = false := by
  rw [branchTaken, h]

/-- Settles O60: there is nothing to decode, so no load-use hazard and a bubble behind. -/
theorem decodeOfABubble : Obligations.DecodeOfABubble := by
  unfold Obligations.DecodeOfABubble
  intro s t hh hstep hbubble
  obtain rfl := eq_clocked_of_step hh hstep
  refine ⟨Option.eq_none_iff_forall_not_mem.mpr fun d hd => ?_, not_stalls_of_bubble (.inl hbubble)⟩
  obtain ⟨-, -, f, hf, -⟩ := newIdEx_some hd
  cases hbubble.symm.trans hf

/-- Settles O28: the instruction that stalls ID is a load, and a load takes no branch. -/
theorem stallAndFlushExclusive : Obligations.StallAndFlushExclusive := by
  unfold Obligations.StallAndFlushExclusive
  rintro s t hinv hh hstep ⟨hstall, hflush⟩
  obtain rfl := eq_clocked_of_step hh hstep
  exact Bool.eq_false_iff.mp (not_branchTaken_of_stalls hinv hstall) hflush

/-- After an edge that leaves an instruction in IF/ID the machine is not halted (R154). -/
theorem clocked_not_halted_of_ifid {v : Option Record} {s : State} {f : IfId} (h : newIfId v s = some f) :
    (clocked v s).halted = false := by simp [haltTest, h]

/-- Settles O29: the stall leaves a bubble in ID/EX, so the next edge meets no load there and no branch, and decodes
the held instruction. -/
theorem stallLastsOneStep : Obligations.StallLastsOneStep := by
  unfold Obligations.StallLastsOneStep
  intro s t u hinv hh hstep hstall hstep'
  obtain rfl := eq_clocked_of_step hh hstep
  obtain ⟨f, d, r, hf, -⟩ := stalls_iff.mp hstall
  have hheld : newIfId (fetch s.program s.pc) s = some f :=
    (newIfId_of_stall hstall (not_branchTaken_of_stalls hinv hstall)).trans hf
  have hbubble : (clocked (fetch s.program s.pc) s).idex = none := newIdEx_of_stall hstall
  obtain rfl := eq_clocked_of_step (clocked_not_halted_of_ifid hheld) hstep'
  have hnoStall := not_stalls_of_bubble (.inr hbubble)
  have hnoBranch := not_branchTaken_of_bubble hbubble
  exact ⟨hnoStall, hnoBranch, f, _, hf, newIdEx_of_decode hheld hnoStall hnoBranch, rfl⟩

/-! The forwarding list (R139, R229) -/

theorem forwardsOf_slots (exmem : Option ExMem) (memwb : Option MemWb) (sl : Slot) (slot : Option Reg) :
    ((forwardsOf exmem memwb sl slot).map (·.slot) = [] ∨ (forwardsOf exmem memwb sl slot).map (·.slot) = [sl]) ∧
      ∀ f ∈ forwardsOf exmem memwb sl slot, f.reg ≠ 0 := by
  rcases forwardsOf_cases exmem memwb sl slot with h | ⟨f, h, rfl, -, hreg⟩
  · simp [h]
  · simp [h, hreg]

/-- The forwarding list holds what slot A adds, then what slot B adds. -/
theorem stepForwards_slots (s : State) :
    (stepForwards s).map (·.slot) ∈ [[], [Slot.a], [Slot.b], [Slot.a, Slot.b]] ∧ ∀ f ∈ stepForwards s, f.reg ≠ 0 := by
  cases hd : s.idex with
  | none => simp [stepForwards, hd]
  | some d =>
    rw [stepForwards, hd]
    obtain ⟨hslotsA, hregsA⟩ := forwardsOf_slots s.exmem s.memwb .a (slotA d.instr.instr)
    obtain ⟨hslotsB, hregsB⟩ := forwardsOf_slots s.exmem s.memwb .b (slotB d.instr.instr)
    refine ⟨?_, fun f hf => (List.mem_append.mp hf).elim (hregsA f) (hregsB f)⟩
    rw [List.map_append]
    rcases hslotsA with ha | ha <;> rcases hslotsB with hb | hb <;> simp [ha, hb]

/-- Settles O17: each slot adds at most one record, never of register 0, and the counter rises by their number. -/
theorem forwardAccounting : Obligations.ForwardAccounting := by
  unfold Obligations.ForwardAccounting
  intro s t hh hstep
  obtain rfl := eq_clocked_of_step hh hstep
  exact ⟨rfl, stepForwards_slots s⟩

/-! A word placed at the pc (log entries 7 and 11) -/

section Placed
variable (i : Instr) (s : State)

/-- The slot the instruction is placed in holds its record. -/
theorem getElem?_programWith (program : List Record) (k : Nat) :
    (programWith program k i)[k]? = some (canonicalRecord i (4 * (k : Int))) := by
  have hbefore : (program.take k ++ paddingTo k program).length = k := by
    simp [paddingTo]
    omega
  rw [programWith, List.append_assoc, List.getElem?_append_right hbefore.le, hbefore, Nat.sub_self]
  rfl

theorem fetch_placeInstr :
    fetch (placeInstr i s).program (placeInstr i s).pc = some (canonicalRecord i (placeInstr i s).pc) :=
  (fetch_slotAddress _ _).trans (getElem?_programWith i s.program (pcSlot s))

/-- The placing leaves in ID/EX nothing that would stall or squash the fetch or refuse the step: what would is
emptied. -/
theorem placeInstr_runs :
    stalls (placeInstr i s) = false ∧ branchTaken (placeInstr i s) = false ∧
      (placeInstr i s).idex.all latchComplete = true := by
  have hidex : (placeInstr i s).idex =
      if stalls s || branchTaken s || !s.idex.all latchComplete then none else s.idex := rfl
  split at hidex
  · exact ⟨not_stalls_of_bubble (.inr hidex), not_branchTaken_of_bubble hidex, by rw [hidex]; rfl⟩
  · next hquiet =>
    simp only [Bool.or_eq_true, not_or, Bool.not_eq_true, Bool.not_eq_true', Bool.not_eq_false] at hquiet
    obtain ⟨⟨hstall, htaken⟩, hcomplete⟩ := hquiet
    refine ⟨?_, ?_, by rw [hidex]; exact hcomplete⟩
    · rw [← hstall]
      simp only [stalls, loadUse, hidex, placeInstr_ifid]
    · rw [← htaken]
      simp only [branchTaken, hidex]
      rfl

end Placed

/-- Settles O7: fetch gives the placed record, and the edge neither holds nor squashes it. -/
theorem placedWordRunsNext : Obligations.PlacedWordRunsNext := by
  unfold Obligations.PlacedWordRunsNext
  intro s nbits w i hword
  have hplace : s.withFetchWord nbits w = placeInstr i s := by rw [State.withFetchWord, hword]
  rw [hplace]
  obtain ⟨hstall, htaken, hcomplete⟩ := placeInstr_runs i s
  have hfetch := fetch_placeInstr i s
  have hedge := edge_next (v := some (canonicalRecord i (placeInstr i s).pc)) (placeInstr_halted i s) hcomplete
  have hexec : exec i (placeInstr i s) = edge (some (canonicalRecord i (placeInstr i s).pc)) (placeInstr i s) := by
    rw [exec_eq_edge, presented, hfetch]
    exact congrArg (fun r => edge (some r) (placeInstr i s)) (if_pos rfl)
  have hstep : step (placeInstr i s) = edge (some (canonicalRecord i (placeInstr i s).pc)) (placeInstr i s) := by
    rw [step_eq_edge, hfetch]
  exact ⟨_, hstep.trans hedge, hexec.trans hedge, _, newIfId_of_fetch hstall htaken, rfl, rfl, rfl⟩

/-! The snapshot after a step (R225 to R229) -/

section SnapshotViews
variable (s : State)

theorem stageViews_annotations :
    (stageViews s).map (·.annotations) =
      [frontAnnotations s.last, frontAnnotations s.last, executeAnnotations s.last, [], []] := rfl

theorem executeAnnotations_eq (l : LastStep) :
    executeAnnotations l =
      (if l.forwards = [] then [] else [.forward (l.forwards.map fun f => (f.slot, f.source))]) ++
        if l.flushed = true then [.branchTaken] else [] := by
  cases hforwards : l.forwards <;> simp [executeAnnotations, hforwards]

theorem snapshot_memory_length : (snapshot s).memory.length = s.params.memWords := by
  simp [snapshot, memoryArray]

theorem snapshot_memory_get {k : Nat} (hk : k < s.params.memWords) :
    (snapshot s).memory[k]? = some (loadWord s.mem k) := by
  simp [snapshot, memoryArray, hk]

end SnapshotViews

/-- Settles O59: the views read the record of the step, and an annotation stands exactly where its flag or the
forwarding list says. -/
theorem snapshotShowsTheStep : Obligations.SnapshotShowsTheStep := by
  unfold Obligations.SnapshotShowsTheStep
  intro s t hh hstep
  obtain rfl := eq_clocked_of_step hh hstep
  refine ⟨rfl, ?texts, rfl, rfl, rfl, snapshot_memory_length _, fun k hk => snapshot_memory_get _ hk, rfl, rfl, rfl,
    rfl, rfl, rfl, rfl, fun hstall hflush => ?stall, fun hflush hstall => ?flush, fun hstall hflush => ?neither⟩
  case texts => simp [snapshot, stageViews, newLast, Function.comp_def]
  all_goals
    refine (stageViews_annotations _).trans ?_
    simp [frontAnnotations, executeAnnotations_eq, hstall, hflush, -clocked_last]

end Sys2Proof.Machine
end

section
/-! SUPPORT. Proofs of the statements about the well-formed machine (spec/10_state.md R44 with R82): it holds at reset,
every step and every host call keeps it, and what `restoreState` refuses (spec/45_snapshot_and_host.md R217, R219,
R223). -/

namespace Sys2Proof.Machine

/-! The parts of the invariant -/

section Parts
variable {s : State}

theorem State.Inv.ifidAgrees (hinv : s.Inv) {f : IfId} (hf : s.ifid = some f) : ifidAgrees s.program f = true := by
  obtain ⟨-, -, -, hifid, -⟩ := (wellFormed_iff s).mp hinv.1
  exact hifid f hf

theorem State.Inv.pc_aligned (hinv : s.Inv) : s.pc % 4 = 0 := ((wellFormed_iff s).mp hinv.1).1

/-- An instruction in ID/EX stands at the address of its record, a multiple of 4 (R82). -/
theorem State.Inv.idex_addr (hinv : s.Inv) {d : IdEx} (hd : s.idex = some d) :
    d.addr = d.instr.pc ∧ d.instr.pc % 4 = 0 := by
  obtain ⟨hheld, -⟩ := idexAgrees_iff.mp (hinv.idexAgrees hd)
  obtain ⟨hfetch, haddr⟩ := heldAt_iff.mp hheld
  obtain ⟨-, k, -, hk⟩ := fetch_slot hinv.2.1 hfetch
  exact ⟨haddr, by omega⟩

end Parts

/-! A step keeps the parts (R44) -/

section StepParts
variable {s : State}

theorem newPc_aligned (hinv : s.Inv) : newPc s % 4 = 0 := by
  have haligned := hinv.pc_aligned
  cases htaken : branchTaken s with
  | true =>
    obtain ⟨d, rs, rt, imm, hd, -, hpc⟩ := newPc_of_taken hinv htaken
    obtain ⟨-, hd4⟩ := hinv.idex_addr hd
    rw [hpc, branchTarget]
    omega
  | false =>
    rw [newPc_of_not_taken htaken, pcCandidate]
    split <;> omega

/-- What an edge leaves in IF/ID is the held instruction, or the one fetched at the pc. -/
theorem newIfId_some {v : Option Record} {f : IfId} (h : newIfId v s = some f) :
    (stalls s = true ∧ s.ifid = some f) ∨ (stalls s = false ∧ ∃ r, v = some r ∧ f = ⟨r, s.pc⟩) := by
  unfold newIfId builtIfId at h
  split at h
  · cases h
  · split at h
    · next hstall => exact .inl ⟨hstall, h⟩
    · next hstall =>
      obtain ⟨r, hr, hf⟩ := Option.map_eq_some_iff.mp h
      exact .inr ⟨by simpa using hstall, r, hr, hf.symm⟩

theorem newIfId_agrees (hinv : s.Inv) {f : IfId} (h : newIfId (fetch s.program s.pc) s = some f) :
    ifidAgrees s.program f = true := by
  rcases newIfId_some h with ⟨-, hheld⟩ | ⟨-, r, hr, rfl⟩
  · exact hinv.ifidAgrees hheld
  · exact heldAt_of_fetch hinv.2.1 hinv.pc_aligned hr

theorem newIdEx_agrees (hinv : s.Inv) {d : IdEx} (h : newIdEx s = some d) : idexAgrees s.program d = true := by
  obtain ⟨-, -, f, hf, rfl⟩ := newIdEx_some h
  exact idexAgrees_iff.mpr ⟨hinv.ifidAgrees hf, rfl, rfl, rfl, rfl⟩

theorem newExMem_agrees (hinv : s.Inv) {e : ExMem} (h : newExMem s = some e) : exmemAgrees s.program e = true := by
  cases hd : s.idex with
  | none => cases (newExMem_of_bubble hd).symm.trans h
  | some d =>
    obtain rfl := Option.some.inj ((newExMem_of_idex hd).symm.trans h)
    obtain ⟨hheld, hctrl, hdest, -⟩ := idexAgrees_iff.mp (hinv.idexAgrees hd)
    exact exmemAgrees_iff.mpr ⟨hheld, hctrl, hdest⟩

theorem newMemWb_agrees (hinv : s.Inv) {w : MemWb} (h : newMemWb s = some w) : memwbAgrees s.program w = true := by
  cases he : s.exmem with
  | none => cases (newMemWb_of_bubble he).symm.trans h
  | some e =>
    obtain rfl := Option.some.inj ((newMemWb_of_exmem he).symm.trans h)
    obtain ⟨-, -, -, -, -, hexmem, -⟩ := (wellFormed_iff s).mp hinv.1
    obtain ⟨hheld, hctrl, hdest⟩ := exmemAgrees_iff.mp (hexmem e he)
    exact memwbAgrees_iff.mpr ⟨hheld, hctrl, hdest⟩

/-- An edge with what Fetch gives keeps the invariant: `halted` is the halt test itself. -/
theorem State.Inv.clocked (hinv : s.Inv) : (clocked (fetch s.program s.pc) s).Inv := by
  obtain ⟨-, hzero, hmem, -⟩ := (wellFormed_iff s).mp hinv.1
  refine ⟨(wellFormed_iff _).mpr ⟨newPc_aligned hinv, (wbRegs_zero s).trans hzero, memAfter_wf hmem,
    fun _ => newIfId_agrees hinv, fun _ => newIdEx_agrees hinv, fun _ => newExMem_agrees hinv,
    fun _ => newMemWb_agrees hinv, id⟩, hinv.2⟩

end StepParts

/-- Settles O33, part by part of R44. -/
theorem stepKeepsInvariant : Obligations.StepKeepsInvariant := by
  unfold Obligations.StepKeepsInvariant
  intro s t hinv hstep
  rcases step_cases hstep with ⟨-, rfl⟩ | ⟨-, -, rfl⟩
  · exact hinv
  · exact hinv.clocked

/-! The fresh machine -/

theorem fresh_inv {p : Params} {program : List Record} (haddressed : programAddressed program = true)
    (hbounds : p.InBounds) : (State.fresh p program).Inv := by
  refine ⟨(wellFormed_iff _).mpr ⟨rfl, readReg_fresh p program 0, memory_nil_wf _, ?_⟩, haddressed, hbounds⟩
  simp

/-- With bubbles in ID/EX and IF/ID there is no operand and no address to agree. -/
theorem coherent_of_bubbles {s : State} (hidex : s.idex = none) (hifid : s.ifid = none) : s.Coherent := by
  refine ⟨by rw [noUnreadyLoad, hidex], fun d hd => ?_, fun f hf => ?_⟩
  · cases hidex.symm.trans hd
  · cases hifid.symm.trans hf

theorem fresh_coherent (p : Params) (program : List Record) : (State.fresh p program).Coherent :=
  coherent_of_bubbles rfl rfl

theorem config_params_inBounds : Config.params.InBounds := by
  have hlt : Config.openMemWords % 2 ^ 29 < 2 ^ 29 := Nat.mod_lt _ (by decide)
  show 1 ≤ 1 + Config.openMemWords % 2 ^ 29 ∧ 1 + Config.openMemWords % 2 ^ 29 ≤ 2 ^ 29
  omega

/-- Settles O32: the fresh machine around the empty program, its parameters within bounds by their definition. -/
theorem resetIsSound : Obligations.ResetIsSound := by
  unfold Obligations.ResetIsSound
  exact ⟨fresh_inv rfl config_params_inBounds, fresh_coherent _ _⟩

/-! Host calls -/

/-- The program a well-formed raw list loads as is addressed (R82). -/
theorem addressedFrom_of_raw {k : Nat} {program : List Record}
    (h : rawWellFormedFrom k (program.map rawOf) = true) : addressedFrom k program = true := by
  induction program generalizing k with
  | nil => rfl
  | cons r rest ih =>
    simp only [List.map_cons, rawWellFormedFrom, RawRecord.wellFormedAt, Bool.and_eq_true] at h
    obtain ⟨⟨⟨⟨⟨hpc, -⟩, -⟩, -⟩, -⟩, hrest⟩ := h
    exact Bool.and_eq_true_iff.mpr ⟨hpc, ih hrest⟩

section Calls
variable {s : State}

/-- A load leaves the state alone, or puts the fresh state around an addressed program. -/
theorem loadProgram_state (l : List RawRecord) (s : State) :
    (loadProgram l s = (s, .refused .illFormedProgram)) ∨
      ∃ program, programAddressed program = true ∧ loadProgram l s = (State.fresh s.params program, .done) := by
  cases hwf : rawProgramWellFormed l with
  | false => exact .inl (loadProgram_of_not_wellFormed hwf)
  | true =>
    obtain ⟨program, hraw, hload⟩ := loadProgram_of_wellFormed (s := s) hwf
    exact .inr ⟨program, addressedFrom_of_raw (hraw ▸ hwf), hload⟩

theorem State.Inv.loadProgram (hinv : s.Inv) (l : List RawRecord) : (loadProgram l s).1.Inv := by
  rcases loadProgram_state l s with hrefused | ⟨program, haddressed, hload⟩
  · rw [hrefused]
    exact hinv
  · rw [hload]
    exact fresh_inv haddressed hinv.2.2

/-- A source text is loaded as its instruction list, or changes nothing. -/
theorem loadProgramFromSource_state (text : String) (s : State) :
    (loadProgramFromSource text s).1 = s ∨
      (loadProgramFromSource text s).1 = (loadProgram (parse text).instructions s).1 := by
  by_cases herrors : (parse text).errors = []
  · right
    rcases loadProgram_state (parse text).instructions s with hload | ⟨program, -, hload⟩ <;>
      simp [loadProgramFromSource, herrors, hload]
  · exact .inl (congrArg Prod.fst (loadProgramFromSource_of_errors herrors))

theorem State.Inv.resetEngine (hinv : s.Inv) (b : Bool) : (resetEngine b s).Inv := by
  cases b with
  | true => exact fresh_inv rfl hinv.2.2
  | false => exact fresh_inv hinv.2.1 hinv.2.2

theorem State.Inv.stepEngine (hinv : s.Inv) : (stepEngine s).1.Inv := by
  obtain ⟨t, hstep⟩ := hinv.exists_step
  rw [Machine.stepEngine, hstep]
  exact stepKeepsInvariant s t hinv hstep

theorem restoreState_of_wellFormed {e : EngineState} (hwf : (installed e s).wellFormed = true) :
    restoreState e s = (installed e s, .done) := if_pos hwf

theorem restoreState_of_not_wellFormed {e : EngineState} (hwf : (installed e s).wellFormed = false) :
    restoreState e s = (s, .refused .illFormedState) := if_neg (Bool.eq_false_iff.mp hwf)

theorem State.Inv.restoreState (hinv : s.Inv) (e : EngineState) : (restoreState e s).1.Inv := by
  cases hwf : (installed e s).wellFormed with
  | true =>
    rw [restoreState_of_wellFormed hwf]
    exact ⟨hwf, hinv.2⟩
  | false =>
    rw [restoreState_of_not_wellFormed hwf]
    exact hinv

end Calls

/-- Settles O35, call by call; what a load or a reset leaves is a fresh machine, whose pipeline is empty. -/
theorem hostCallsKeepInvariant : Obligations.HostCallsKeepInvariant := by
  unfold Obligations.HostCallsKeepInvariant
  refine ⟨fun c s hinv => ?inv, fun l s hdone => ?load, fun b s => fresh_coherent _ _⟩
  case inv =>
    cases c with
    | loadProgram l => exact hinv.loadProgram l
    | loadProgramFromSource text =>
      rcases loadProgramFromSource_state text s with h | h <;> rw [hostCall, h]
      · exact hinv
      · exact hinv.loadProgram _
    | reset b => exact hinv.resetEngine b
    | step => exact hinv.stepEngine
    | restoreState e => exact hinv.restoreState e
    | getSnapshot | exportState => exact hinv
  case load =>
    rw [hostCall] at hdone ⊢
    rcases loadProgram_state l s with hrefused | ⟨program, -, hload⟩
    · simp [hrefused] at hdone
    · rw [hload]
      exact fresh_coherent _ _

/-- Settles O51, by the three answers of a source text. -/
theorem loadFromSourceRule : Obligations.LoadFromSourceRule := by
  unfold Obligations.LoadFromSourceRule
  exact fun text s => ⟨loadProgramFromSource_of_errors, loadProgramFromSource_of_wellFormed,
    loadProgramFromSource_of_not_wellFormed⟩

/-! Restoring a state (R223, R233) -/

theorem installed_exportState {s u : State} (hprogram : u.program = s.program) (hparams : u.params = s.params) :
    installed (exportState s) u = s := by
  rw [installed, hprogram, hparams]
  rfl

/-- Settles O56: under the same program and parameters what is installed is the exported machine itself. -/
theorem exportThenRestore : Obligations.ExportThenRestore := by
  unfold Obligations.ExportThenRestore
  intro s u hinv hprogram hparams
  have hsame := installed_exportState hprogram hparams
  refine ⟨rfl, ?_⟩
  rw [hostCall, restoreState_of_wellFormed (hsame ▸ hinv.1), hsame]

theorem restoreState_of_failure {e : EngineState} {s : State} (h : ¬(installed e s).wellFormed = true) :
    hostCall (.restoreState e) s = (s, .refused .illFormedState) :=
  restoreState_of_not_wellFormed (Bool.eq_false_iff.mpr h)

theorem haltTest_iff {ifid : Option IfId} {idex : Option IdEx} {exmem : Option ExMem} {memwb : Option MemWb} {pc : Int}
    {program : List Record} :
    haltTest ifid idex exmem memwb pc program = true ↔
      ifid = none ∧ idex = none ∧ exmem = none ∧ memwb = none ∧ 4 * (program.length : Int) ≤ pc := by
  simp [haltTest, and_assoc]

/-- Settles O55: what is installed is well-formed or refused, and each refusal breaks one part of R44. -/
theorem restoreStateRule : Obligations.RestoreStateRule := by
  unfold Obligations.RestoreStateRule
  intro e s
  refine ⟨fun hwf => ⟨installed e s, restoreState_of_wellFormed hwf, rfl, rfl, rfl⟩, restoreState_of_not_wellFormed,
    fun hzero => ?zero, fun hpc => ?pc, fun f hf hbad => ?ifid, fun d hd hbad => ?idex, fun m hm hbad => ?exmem,
    fun w hw hbad => ?memwb, fun hh hbad => ?halted, fun hmem => ?mem⟩
  all_goals
    refine restoreState_of_failure fun hwf => ?_
    obtain ⟨hpc', hzero', hmem', hifid', hidex', hexmem', hmemwb', hhalted'⟩ := (wellFormed_iff _).mp hwf
  case zero => exact hzero hzero'
  case pc => exact hpc hpc'
  case ifid =>
    have hheld := heldAt_iff.mp (hifid' f hf)
    tauto
  case idex =>
    have hagrees := idexAgrees_iff.mp (hidex' d hd)
    rw [heldAt_iff] at hagrees
    tauto
  case exmem =>
    have hagrees := exmemAgrees_iff.mp (hexmem' m hm)
    rw [heldAt_iff] at hagrees
    tauto
  case memwb =>
    have hagrees := memwbAgrees_iff.mp (hmemwb' w hw)
    rw [heldAt_iff] at hagrees
    tauto
  case halted => exact hbad (haltTest_iff.mp (hhalted' hh))
  case mem => exact hmem hmem'

end Sys2Proof.Machine
end

section
/-! SUPPORT. Proofs of the statements about the pipeline and sequential execution (spec/40_pipeline.md R159;
spec/70_reset_and_hazards.md R275): what EX sees is what the older instructions leave, so one edge completes the
instruction in EX as sequential execution would, and a run of edges is a sequential run. -/

namespace Sys2Proof.Machine

/-! What forwarding gives (R137 to R140) -/

section Forwarded
variable {s : State} {r : Reg}

theorem readReg_writeDest (x : Regs) (dest : Option Reg) (v : Word) (hr : r ≠ 0) :
    readReg (writeDest x dest v) r = if dest = some r then v else readReg x r := by
  cases dest with
  | none => rfl
  | some d =>
    by_cases hd : d = r
    · rw [writeDest, hd, readReg_writeReg_same x hr, if_pos rfl]
    · rw [writeDest, readReg_writeReg_other x (Ne.symm hd), if_neg fun h => hd (Option.some.inj h)]

theorem readReg_writeDest_if (c : Bool) (x : Regs) (dest : Option Reg) (v : Word) (hr : r ≠ 0) :
    readReg (if c = true then writeDest x dest v else x) r = if c = true ∧ dest = some r then v else readReg x r := by
  cases c with
  | true => simp [readReg_writeDest, hr]
  | false => simp

/-- After WB a register holds what MEM/WB offers for it, else what it held. -/
theorem readReg_wbRegs (hr : r ≠ 0) : readReg (wbRegs s) r = (fromMemWb s.memwb r).getD (readReg s.x r) := by
  cases hw : s.memwb with
  | none => rw [wbRegs_of_bubble hw]; rfl
  | some w =>
    rw [wbRegs, hw, readReg_writeDest_if _ _ _ _ hr]
    split
    · next hmatch => rw [fromMemWb_of_match rfl hmatch.1 hmatch.2]; rfl
    · next hno => rw [fromMemWb_of_no_match (by rintro _ ⟨⟩; exact hno)]; rfl

/-- EX/MEM holds no load of the register whose word is still to come. -/
def NoPendingLoad (s : State) (r : Reg) : Prop :=
  ∀ e, s.exmem = some e → e.ctrl.memToReg = true → e.dest ≠ some r

/-- Once EX/MEM is written back as well, a register holds what EX/MEM offers for it, else what WB leaves. -/
theorem readReg_regsBehindEx (hr : r ≠ 0) (hready : NoPendingLoad s r) :
    readReg (regsBehindEx s) r = (fromExMem s.exmem r).getD (readReg (wbRegs s) r) := by
  cases he : s.exmem with
  | none => rw [regsBehindEx, newMemWb_of_bubble he]; rfl
  | some e =>
    rw [regsBehindEx, newMemWb_of_exmem he]
    simp only [readReg_writeDest_if _ _ _ _ hr]
    split
    · next hmatch =>
      have hload : e.ctrl.memToReg = false := Bool.eq_false_iff.mpr fun hload => hready e he hload hmatch.2
      rw [fromExMem_of_match rfl hmatch.1 hmatch.2 hload, hload]
      rfl
    · next hno =>
      rw [fromExMem_of_no_match (by rintro _ ⟨⟩ hmatch; exact hno ⟨hmatch.1, hmatch.2.1⟩)]
      rfl

theorem readReg_regsBehindEx_zero (s : State) : readReg (regsBehindEx s) 0 = readReg s.x 0 := by
  rw [← wbRegs_zero s, regsBehindEx]
  split
  · split
    · exact readReg_writeDest_zero _ _ _
    · rfl
  · rfl

theorem operandOf_slot (exmem : Option ExMem) (memwb : Option MemWb) (base : Word) (hr : r ≠ 0) :
    operandOf exmem memwb (some r) base = (fromExMem exmem r).getD ((fromMemWb memwb r).getD base) := by
  cases hex : fromExMem exmem r with
  | some v => exact (slot_of_forward .a base (forwardOf_of_exmem hr hex)).1
  | none =>
    cases hwb : fromMemWb memwb r with
    | some v => exact (slot_of_forward .a base (forwardOf_of_memwb hr hex hwb)).1
    | none => exact (slot_of_no_forward .a base (forwardOf_of_neither hex hwb)).1

/-- A slot read from the register file and then forwarded is what the two older instructions leave in it. -/
theorem operandOf_eq_slotValue {slot : Option Reg} (hready : ∀ r, slot = some r → r ≠ 0 → NoPendingLoad s r) :
    operandOf s.exmem s.memwb slot (slotValue s.x slot) = slotValue (regsBehindEx s) slot := by
  cases slot with
  | none => rfl
  | some r =>
    show operandOf s.exmem s.memwb (some r) (readReg s.x r) = readReg (regsBehindEx s) r
    by_cases hr : r = 0
    · subst hr
      rw [readReg_regsBehindEx_zero, (slot_of_no_forward .a _ forwardOf_zero).1]
    · rw [operandOf_slot _ _ _ hr, readReg_regsBehindEx hr (hready r rfl hr), readReg_wbRegs hr]

end Forwarded

/-! Coherence across an edge (R159) -/

/-- EX sees the operands that the older instructions leave. -/
def OperandsCurrent (s : State) (d : IdEx) : Prop :=
  opA s d = slotValue (regsBehindEx s) (slotA d.instr.instr) ∧
    opB s d = slotValue (regsBehindEx s) (slotB d.instr.instr)

theorem operandAgrees_iff {s : State} {exmem : Option ExMem} {memwb : Option MemWb} {slot : Option Reg} {base : Word} :
    operandAgrees s slot (operandOf exmem memwb slot base) = true ↔
      operandOf exmem memwb slot base = slotValue (regsBehindEx s) slot := by
  cases slot with
  | none => exact iff_of_true rfl rfl
  | some r => exact beq_iff_eq

theorem operandsCurrent_iff {s : State} {d : IdEx} :
    OperandsCurrent s d ↔
      operandAgrees s (slotA d.instr.instr) (opA s d) = true ∧ operandAgrees s (slotB d.instr.instr) (opB s d) = true :=
  (and_congr operandAgrees_iff operandAgrees_iff).symm

section Edge
variable {s : State} (v : Option Record)

/-- A load an edge moves to EX/MEM writes no nonzero register that the instruction decoded on the same edge reads: the
load-use check would have stalled it. -/
theorem noPendingLoad_clocked (hinv : s.Inv) (hstall : stalls s = false) {f : IfId} (hf : s.ifid = some f) {r : Reg}
    (hr : r ≠ 0) (hreads : readsReg f.instr.instr r = true) : NoPendingLoad (clocked v s) r := by
  intro e he hload hdest
  cases hd : s.idex with
  | none => cases (newExMem_of_bubble hd).symm.trans he
  | some d =>
    obtain rfl := Option.some.inj ((newExMem_of_idex hd).symm.trans he)
    obtain ⟨-, hctrl, -⟩ := idexAgrees_iff.mp (hinv.idexAgrees hd)
    have hread : d.ctrl.memRead = true := by
      rw [hctrl, ← memToReg_eq_memRead, ← hctrl]
      exact hload
    exact Bool.eq_false_iff.mp hstall (stalls_iff.mpr ⟨f, d, r, hf, hd, hread, hdest, hr, readsReg_iff.mp hreads⟩)

theorem noUnreadyLoad_of_noPendingLoad
    (h : ∀ d r, s.idex = some d → r ≠ 0 → readsReg d.instr.instr r = true → NoPendingLoad s r) :
    noUnreadyLoad s = true := by
  unfold noUnreadyLoad
  split
  · next d e hd he =>
    split
    · next r hdest =>
      rw [Bool.not_eq_true', Bool.eq_false_iff]
      intro hunready
      simp only [Bool.and_eq_true, bne_iff_ne] at hunready
      obtain ⟨⟨hload, hr⟩, hreads⟩ := hunready
      exact h d r hd hr hreads e he hload hdest
    · rfl
  · rfl

/-- An edge keeps the pipeline coherent, whatever enters it. -/
theorem State.Coherent.clocked (hinv : s.Inv) (hcoh : s.Coherent) : (clocked v s).Coherent := by
  have hready : ∀ d r, newIdEx s = some d → r ≠ 0 → readsReg d.instr.instr r = true →
      NoPendingLoad (Machine.clocked v s) r := by
    intro d r hd hr hreads
    obtain ⟨-, hstall, f, hf, rfl⟩ := newIdEx_some hd
    exact noPendingLoad_clocked v hinv hstall hf hr hreads
  refine ⟨noUnreadyLoad_of_noPendingLoad hready, fun d hd => operandsCurrent_iff.mp ?operands, fun f hf => ?pc⟩
  case operands =>
    obtain ⟨-, -, f, -, hdecoded⟩ := newIdEx_some hd
    have hslots := fun r hr => hready d r hd hr
    subst hdecoded
    exact ⟨operandOf_eq_slotValue fun r hslot hr => hslots r hr (readsReg_iff.mpr (.inl hslot)),
      operandOf_eq_slotValue fun r hslot hr => hslots r hr (readsReg_iff.mpr (.inr hslot))⟩
  case pc =>
    have htaken : branchTaken s = false := Bool.eq_false_iff.mpr fun htaken => by
      cases (newIfId_of_taken htaken).symm.trans hf
    rw [clocked_pc, newPc_of_not_taken htaken]
    rcases newIfId_some hf with ⟨hstall, hheld⟩ | ⟨hstall, r, -, rfl⟩
    · rw [pcCandidate_of_stall hstall]
      exact hcoh.2.2 f hheld
    · exact pcCandidate_of_no_stall hstall

end Edge

/-- Settles O34: a halted machine stays as it is, and an edge keeps coherence. -/
theorem stepKeepsCoherence : Obligations.StepKeepsCoherence := by
  unfold Obligations.StepKeepsCoherence
  intro s t hinv hcoh hstep
  rcases step_cases hstep with ⟨-, rfl⟩ | ⟨-, -, rfl⟩
  · exact hcoh
  · exact hcoh.clocked _ hinv

/-! The architectural effect in the terms of the control table (R89) -/

section Effect
variable (p : Params) (i : Instr) (a : Arch)

/-- What the ALU gives for an instruction over a register file (R90, R140, R141). -/
def archResult (i : Instr) (x : Regs) : Word :=
  alu (ctrlOf i).aluOp (slotValue x (slotA i))
    (if (ctrlOf i).useImmediate = true then (immOf i).getD 0 else slotValue x (slotB i))

/-- The instruction is a branch that is taken over a register file (R201). -/
def archTaken (i : Instr) (x : Regs) : Bool :=
  (ctrlOf i).isBranch && branchCondition (slotValue x (slotA i)) (slotValue x (slotB i))

theorem archEffect_x :
    (archEffect p i a).x =
      if (ctrlOf i).regWrite = true then
        writeDest a.x (destOf i)
          (if (ctrlOf i).memToReg = true then
            (if (ctrlOf i).memRead = true then memRead p a.mem (archResult i a.x) else 0)
          else archResult i a.x)
      else a.x := by
  cases i <;> rfl

theorem archEffect_mem :
    (archEffect p i a).mem =
      if (ctrlOf i).memWrite = true then memWrite p a.mem (archResult i a.x) (slotValue a.x (slotB i)) else a.mem := by
  cases i <;> rfl

theorem archEffect_branchCount :
    (archEffect p i a).branchCount = a.branchCount + tally (ctrlOf i).isBranch := by
  cases i <;> rfl

theorem archEffect_branchMispredictions :
    (archEffect p i a).branchMispredictions = a.branchMispredictions + tally (archTaken i a.x) := by
  cases i <;> rfl

variable {i a}

theorem archEffect_pc_of_not_taken (h : archTaken i a.x = false) : (archEffect p i a).pc = a.pc + 4 := by
  cases i with
  | beq rs rt imm => exact if_neg (Bool.eq_false_iff.mp h)
  | add | sub | and | or | lw | sw | nop => rfl

theorem archEffect_pc_of_taken {rs rt : Reg} {imm : Word} (h : archTaken (.beq rs rt imm) a.x = true) :
    (archEffect p (.beq rs rt imm) a).pc = branchTarget a.pc imm := if_pos h

end Effect

/-! One edge completes the instruction in EX -/

section Complete
variable {s : State} {d : IdEx}

/-- The latch holds what the tables give for its instruction. -/
def IdEx.FollowsTables (d : IdEx) : Prop :=
  d.ctrl = ctrlOf d.instr.instr ∧ d.dest = destOf d.instr.instr ∧ d.imm = immOf d.instr.instr

theorem State.Inv.followsTables (hinv : s.Inv) (hd : s.idex = some d) : d.FollowsTables := by
  obtain ⟨-, hctrl, hdest, himm, -⟩ := idexAgrees_iff.mp (hinv.idexAgrees hd)
  exact ⟨hctrl, hdest, himm⟩

theorem State.Coherent.operandsCurrent (hcoh : s.Coherent) (hd : s.idex = some d) : OperandsCurrent s d :=
  operandsCurrent_iff.mpr (hcoh.2.1 d hd)

theorem aluOut_eq_archResult (htables : d.FollowsTables) (hops : OperandsCurrent s d) :
    aluOut s d = archResult d.instr.instr (regsBehindEx s) := by
  obtain ⟨hctrl, -, himm⟩ := htables
  obtain ⟨hopA, hopB⟩ := hops
  rw [aluOut, srcB, hopA, hopB, hctrl, himm]
  cases d.instr.instr <;> rfl

theorem branchTakenIn_eq_archTaken (htables : d.FollowsTables) (hops : OperandsCurrent s d) :
    branchTakenIn s d = archTaken d.instr.instr (regsBehindEx s) := by
  obtain ⟨hctrl, -⟩ := htables
  obtain ⟨hopA, hopB⟩ := hops
  rw [branchTakenIn, hopA, hopB, hctrl, archTaken]

/-- Behind EX, an edge adds the effect of the instruction that was there. -/
theorem behindEx_clocked (v : Option Record) (hd : s.idex = some d) (htables : d.FollowsTables)
    (hops : OperandsCurrent s d) :
    behindEx (clocked v s) = { completeFrom s.params d.instr d.addr (behindEx s) with pc := newPc s } := by
  have hresult := aluOut_eq_archResult htables hops
  have htaken := (branchTaken_eq_branchTakenIn hd).trans (branchTakenIn_eq_archTaken htables hops)
  obtain ⟨hctrl, hdest, -⟩ := htables
  have hx : regsBehindEx (clocked v s) = (completeFrom s.params d.instr d.addr (behindEx s)).x := by
    rw [regsBehindEx_clocked v hd, hctrl, hdest, hresult, completeFrom, archEffect_x]
    rfl
  have hmem : memAfter (clocked v s) = (completeFrom s.params d.instr d.addr (behindEx s)).mem := by
    rw [memAfter_clocked v hd, hctrl, hresult, hops.2, completeFrom, archEffect_mem]
    rfl
  have hcount : (newStats s).branchCount = (completeFrom s.params d.instr d.addr (behindEx s)).branchCount := by
    rw [newStats_branchCount_of_idex hd, hctrl, completeFrom, archEffect_branchCount]
    rfl
  have hmiss : (newStats s).branchMispredictions =
      (completeFrom s.params d.instr d.addr (behindEx s)).branchMispredictions := by
    rw [newStats_branchMispredictions, htaken, completeFrom, archEffect_branchMispredictions]
    rfl
  rw [behindEx, hx, hmem, clocked_stats, hcount, hmiss, clocked_pc]

end Complete

/-! The sequential view across an edge -/

section View
variable {s : State} (v : Option Record)

theorem behindId_of_bubble (hd : s.idex = none) : behindId s = behindEx s := by rw [behindId, hd]

theorem behindId_of_taken {d : IdEx} (hd : s.idex = some d) (htaken : branchTaken s = true) :
    behindId s = completeFrom s.params d.instr d.addr (behindEx s) := by
  rw [behindId, hd]
  exact if_pos htaken

theorem behindId_of_not_taken {d : IdEx} (hd : s.idex = some d) (htaken : branchTaken s = false) :
    behindId s = { completeFrom s.params d.instr d.addr (behindEx s) with pc := s.pc } := by
  rw [behindId, hd]
  exact if_neg (Bool.eq_false_iff.mp htaken)

theorem settled_of_bubble (hf : s.ifid = none) : settled s = behindId s := by rw [settled, hf]

theorem settled_of_taken (htaken : branchTaken s = true) : settled s = behindId s := by
  cases hf : s.ifid with
  | none => exact settled_of_bubble hf
  | some f =>
    rw [settled, hf]
    exact if_pos htaken

theorem settled_of_decode {f : IfId} (hf : s.ifid = some f) (htaken : branchTaken s = false) :
    settled s = completeFrom s.params f.instr f.addr (behindId s) := by
  rw [settled, hf]
  exact if_neg (Bool.eq_false_iff.mp htaken)

/-- Behind EX, an edge with a bubble in ID/EX moves the pc and nothing else. -/
theorem behindEx_clocked_bubble (hd : s.idex = none) :
    behindEx (clocked v s) = { behindEx s with pc := newPc s } := by
  rw [behindEx, behindEx, regsBehindEx_clocked_bubble v hd, memAfter_clocked_bubble v hd, clocked_stats,
    newStats_branchCount_of_bubble hd, newStats_branchMispredictions, not_branchTaken_of_bubble hd]
  rfl

/-- What an edge leaves behind EX is what stood behind ID, at the new pc. -/
theorem behindEx_clocked_eq (hinv : s.Inv) (hcoh : s.Coherent) :
    behindEx (clocked v s) = { behindId s with pc := newPc s } := by
  cases hd : s.idex with
  | none => rw [behindId_of_bubble hd, behindEx_clocked_bubble v hd]
  | some d =>
    rw [behindEx_clocked v hd (hinv.followsTables hd) (hcoh.operandsCurrent hd), behindId_withPc hd]

/-- A taken branch in EX leaves the pc where sequential execution goes. -/
theorem behindId_pc_of_taken (hinv : s.Inv) (hcoh : s.Coherent) (htaken : branchTaken s = true) :
    (behindId s).pc = newPc s := by
  obtain ⟨d, rs, rt, imm, hd, hbeq, hpc⟩ := newPc_of_taken hinv htaken
  obtain ⟨haddr, -⟩ := hinv.idex_addr hd
  have harch : archTaken d.instr.instr (regsBehindEx s) = true := by
    rw [← branchTakenIn_eq_archTaken (hinv.followsTables hd) (hcoh.operandsCurrent hd),
      ← branchTaken_eq_branchTakenIn hd, htaken]
  rw [behindId_of_taken hd htaken, hpc, completeFrom, ← haddr]
  rw [hbeq] at harch ⊢
  exact archEffect_pc_of_taken s.params harch

theorem behindEx_clocked_of_taken (hinv : s.Inv) (hcoh : s.Coherent) (htaken : branchTaken s = true) :
    behindEx (clocked v s) = behindId s := by
  rw [behindEx_clocked_eq v hinv hcoh, ← behindId_pc_of_taken hinv hcoh htaken]

/-- What an instruction that fetch gives, or a bubble, makes of the sequential machine (R149). -/
def archFetched (p : Params) (v : Option Record) (a : Arch) : Arch :=
  match v with
  | some r => archEffect p r.instr a
  | none => { a with pc := a.pc + 4 }

theorem archStep_eq_archFetched (p : Params) (program : List Record) (a : Arch) :
    archStep p program a = archFetched p (fetch program a.pc) a := by
  unfold archStep archFetched
  cases fetch program a.pc <;> rfl

theorem decodingTakenBranch_of_ifid {f : IfId} (hf : s.ifid = some f) :
    decodingTakenBranch s = archTaken f.instr.instr (behindId s).x := by
  obtain ⟨⟨i, text, pc⟩, addr⟩ := f
  rw [decodingTakenBranch, hf]
  cases i <;> rfl

theorem decodingTakenBranch_of_bubble (hf : s.ifid = none) : decodingTakenBranch s = false := by
  rw [decodingTakenBranch, hf]

theorem fetchesOnPath_iff :
    fetchesOnPath s = true ↔ stalls s = false ∧ branchTaken s = false ∧ decodingTakenBranch s = false := by
  simp [fetchesOnPath, and_assoc]

/-- On the path of execution the sequential view is at the fetch pc. -/
theorem settled_pc_of_onPath (hcoh : s.Coherent) (hpath : fetchesOnPath s = true) : (settled s).pc = s.pc := by
  obtain ⟨-, htaken, hdecoding⟩ := fetchesOnPath_iff.mp hpath
  cases hf : s.ifid with
  | none => rw [settled_of_bubble hf, behindId_pc_of_not_taken htaken]
  | some f =>
    rw [settled_of_decode hf htaken, hcoh.2.2 f hf]
    rw [decodingTakenBranch_of_ifid hf] at hdecoding
    exact archEffect_pc_of_not_taken s.params hdecoding

/-- The view of a machine with the fetched record in IF/ID, or a bubble, and no branch taken in EX. -/
theorem settled_of_fetched {t : State} {a : Arch} {p : Int} (htaken : branchTaken t = false)
    (hifid : t.ifid = v.map fun r => { instr := r, addr := p }) (hbehind : behindId t = { a with pc := p + 4 })
    (hpc : a.pc = p) : settled t = archFetched t.params v a := by
  subst hpc
  cases v with
  | none => rw [settled_of_bubble hifid, hbehind, archFetched]
  | some r =>
    rw [settled_of_decode hifid htaken, hbehind, archFetched]
    rfl

/-- Without a taken branch the view behind ID is at the fetch pc. -/
theorem behindId_withPc_of_not_taken (htaken : branchTaken s = false) :
    { behindId s with pc := s.pc } = behindId s := by
  rw [← behindId_pc_of_not_taken htaken]

/-- A flush squashes what is behind the branch: the view stays. -/
theorem settled_clocked_of_taken (hinv : s.Inv) (hcoh : s.Coherent) (htaken : branchTaken s = true) :
    settled (clocked v s) = settled s := by
  rw [settled_of_bubble (s := clocked v s) (newIfId_of_taken htaken),
    behindId_of_bubble (s := clocked v s) (newIdEx_of_taken htaken), behindEx_clocked_of_taken v hinv hcoh htaken,
    settled_of_taken htaken]

/-- A stall holds the front: the view stays. -/
theorem settled_clocked_of_stall (hinv : s.Inv) (hcoh : s.Coherent) (hstall : stalls s = true) :
    settled (clocked v s) = settled s := by
  have htaken := not_branchTaken_of_stalls hinv hstall
  obtain ⟨f, d, r, hf, -⟩ := stalls_iff.mp hstall
  have hidex : (clocked v s).idex = none := newIdEx_of_stall hstall
  have hifid : (clocked v s).ifid = some f := (newIfId_of_stall hstall htaken).trans hf
  rw [settled_of_decode hifid (not_branchTaken_of_bubble hidex), settled_of_decode hf htaken,
    behindId_of_bubble hidex, behindEx_clocked_eq v hinv hcoh, newPc_of_not_taken htaken, pcCandidate_of_stall hstall,
    behindId_withPc_of_not_taken htaken]
  rfl

/-- Behind ID, an edge without stall or flush adds the effect of the decoded instruction. -/
theorem completeFrom_clocked (hinv : s.Inv) (hcoh : s.Coherent) {f : IfId} (hf : s.ifid = some f)
    (htaken : branchTaken s = false) :
    completeFrom s.params f.instr f.addr (behindEx (clocked v s)) = settled s := by
  rw [settled_of_decode hf htaken, behindEx_clocked_eq v hinv hcoh]
  rfl

theorem settled_clocked_of_advance (hinv : s.Inv) (hcoh : s.Coherent) (hstall : stalls s = false)
    (htaken : branchTaken s = false) :
    settled (clocked v s) =
      if fetchesOnPath s = true then archFetched s.params v (settled s) else settled s := by
  have hpc : newPc s = s.pc + 4 := (newPc_of_not_taken htaken).trans (pcCandidate_of_no_stall hstall)
  have hifid : (clocked v s).ifid = v.map fun r => { instr := r, addr := s.pc } := newIfId_of_fetch hstall htaken
  cases hf : s.ifid with
  | none =>
    have hpath : fetchesOnPath s = true :=
      fetchesOnPath_iff.mpr ⟨hstall, htaken, decodingTakenBranch_of_bubble hf⟩
    have hidex : (clocked v s).idex = none := by simp [newIdEx, builtIdEx, hf]
    rw [if_pos hpath]
    refine settled_of_fetched v (not_branchTaken_of_bubble hidex) hifid ?_ (settled_pc_of_onPath hcoh hpath)
    rw [behindId_of_bubble hidex, behindEx_clocked_eq v hinv hcoh, settled_of_bubble hf, hpc]
  | some f =>
    have hidex : (clocked v s).idex = some (decoded (wbRegs s) f) := newIdEx_of_decode hf hstall htaken
    have hview := completeFrom_clocked v hinv hcoh hf htaken
    have hbranch : branchTaken (clocked v s) = decodingTakenBranch s := by
      rw [branchTaken_eq_branchTakenIn hidex, decodingTakenBranch_of_ifid hf,
        branchTakenIn_eq_archTaken ⟨rfl, rfl, rfl⟩ ((hcoh.clocked v hinv).operandsCurrent hidex)]
      exact congrArg (fun a => archTaken f.instr.instr a.x) (behindEx_clocked_eq v hinv hcoh)
    cases hdecoding : decodingTakenBranch s with
    | true =>
      have hoff : ¬fetchesOnPath s = true := by simp [fetchesOnPath, hdecoding]
      rw [hdecoding] at hbranch
      rw [if_neg hoff, settled_of_taken hbranch, behindId_of_taken hidex hbranch]
      exact hview
    | false =>
      have hpath : fetchesOnPath s = true := fetchesOnPath_iff.mpr ⟨hstall, htaken, hdecoding⟩
      rw [hdecoding] at hbranch
      rw [if_pos hpath]
      refine settled_of_fetched v hbranch hifid ?_ (settled_pc_of_onPath hcoh hpath)
      rw [behindId_of_not_taken hidex hbranch, clocked_pc, hpc]
      exact congrArg (fun a : Arch => { a with pc := s.pc + 4 }) hview

/-- An edge adds to the sequential view what enters the pipeline, if it enters on the path of execution, and nothing
otherwise. -/
theorem settled_clocked (hinv : s.Inv) (hcoh : s.Coherent) :
    settled (clocked v s) = if fetchesOnPath s = true then archFetched s.params v (settled s) else settled s := by
  cases htaken : branchTaken s with
  | true =>
    rw [settled_clocked_of_taken v hinv hcoh htaken, if_neg (by simp [fetchesOnPath, htaken])]
  | false =>
    cases hstall : stalls s with
    | true => rw [settled_clocked_of_stall v hinv hcoh hstall, if_neg (by simp [fetchesOnPath, hstall])]
    | false => exact settled_clocked_of_advance v hinv hcoh hstall htaken

end View

/-- Settles O48: the edge adds what Fetch gives at the pc, and on the path that is the pc of the sequential view. -/
theorem stepRefinesSequential : Obligations.StepRefinesSequential := by
  unfold Obligations.StepRefinesSequential
  intro s t hinv hcoh hh hstep
  obtain rfl := eq_clocked_of_step hh hstep
  rw [settled_clocked _ hinv hcoh]
  split
  · next hpath => rw [archStep_eq_archFetched, settled_pc_of_onPath hcoh hpath]
  · rfl

/-! Runs -/

/-- A run of one step more that answers has a first step that answers. -/
theorem exists_step_of_run (M : Host.Core) {n : Nat} {s t : M.State} (hrun : M.run (n + 1) s = .next t) :
    ∃ u, M.step s = .next u ∧ M.run n u = .next t := by
  rw [Host.Core.run] at hrun
  split at hrun
  · next u hstep => exact ⟨u, hstep, hrun⟩
  · cases hrun
  · cases hrun

/-- Settles O47: with nothing in flight every stage passes the state on. -/
theorem settledWhenDrained : Obligations.SettledWhenDrained := by
  unfold Obligations.SettledWhenDrained
  rintro s ⟨hifid, hidex, hexmem, hmemwb⟩
  rw [settled_of_bubble hifid, behindId_of_bubble hidex, behindEx, regsBehindEx, newMemWb_of_bubble hexmem,
    memAfter_of_bubble hexmem]
  simp only [wbRegs_of_bubble hmemwb]

/-- A step is at most one sequential step. -/
theorem step_settled {s t : State} (hinv : s.Inv) (hcoh : s.Coherent) (hstep : step s = .next t) :
    settled t = settled s ∨ settled t = archStep s.params s.program (settled s) := by
  cases hh : s.halted with
  | true =>
    obtain rfl : s = t := Host.Outcome.next.inj ((step_halted hh).symm.trans hstep)
    exact .inl rfl
  | false =>
    rw [stepRefinesSequential s t hinv hcoh hh hstep]
    split
    · exact .inr rfl
    · exact .inl rfl

theorem run_settled {n : Nat} {s t : State} (hinv : s.Inv) (hcoh : s.Coherent) (hrun : core.run n s = .next t) :
    ∃ m, m ≤ n ∧ settled t = (archStep s.params s.program)^[m] (settled s) := by
  induction n generalizing s with
  | zero =>
    obtain rfl : s = t := Host.Outcome.next.inj hrun
    exact ⟨0, le_rfl, rfl⟩
  | succ n ih =>
    obtain ⟨u, hstep, hrest⟩ := exists_step_of_run core hrun
    obtain ⟨m, hm, hview⟩ :=
      ih (stepKeepsInvariant s u hinv hstep) (stepKeepsCoherence s u hinv hcoh hstep) hrest
    obtain ⟨hprogram, hparams⟩ := stepKeepsProgramAndParameters .nop s u (.inl hstep)
    rw [hprogram, hparams] at hview
    rcases step_settled hinv hcoh hstep with hsame | hone
    · exact ⟨m, by omega, hsame ▸ hview⟩
    · refine ⟨m + 1, by omega, ?_⟩
      rw [Function.iterate_succ_apply, ← hone, hview]

/-- Settles O49, by induction on the number of steps; an empty pipeline is its own sequential view. -/
theorem runRefinesSequential : Obligations.RunRefinesSequential := by
  unfold Obligations.RunRefinesSequential
  intro n s t hinv hcoh hrun
  obtain ⟨m, hm, hview⟩ := run_settled hinv hcoh hrun
  refine ⟨m, hm, hview, fun hdrained => ?_⟩
  rw [← hview, settledWhenDrained t hdrained]
  exact ⟨rfl, rfl⟩

/-! The effect of an instruction that enters on the path -/

/-- What an instruction presents is a record of that instruction. -/
theorem presented_instr (i : Instr) (s : State) : (presented i s).instr = i := by
  unfold presented
  split
  · split
    · next h => exact h
    · rfl
  · rfl

/-- On the path of execution an instruction's step answers, and adds its effect to the sequential view. -/
theorem exec_takes_effect (i : Instr) {s : State} (hinv : s.Inv) (hcoh : s.Coherent) (hh : s.halted = false)
    (hpath : fetchesOnPath s = true) :
    ∃ t, exec i s = .next t ∧ settled t = archEffect s.params i (settled s) := by
  refine ⟨_, (exec_eq_edge i s).trans (edge_next hh hinv.all_latchComplete), ?_⟩
  rw [settled_clocked _ hinv hcoh, if_pos hpath, archFetched, presented_instr]

/-- Settles O37: the effect of each of the four. -/
theorem aluInstructionsTakeEffect : Obligations.AluInstructionsTakeEffect := by
  unfold Obligations.AluInstructionsTakeEffect
  intro rd rs rt s hinv hcoh hh hpath p hp
  simp only [List.mem_cons, List.not_mem_nil, or_false] at hp
  rcases hp with rfl | rfl | rfl | rfl <;> exact exec_takes_effect _ hinv hcoh hh hpath

/-- Settles O38: what LW adds to the sequential view is its architectural effect. -/
theorem lwTakesEffect : Obligations.LwTakesEffect := by
  unfold Obligations.LwTakesEffect
  exact fun rt rs imm s hinv hcoh hh hpath => exec_takes_effect (.lw rt rs imm) hinv hcoh hh hpath

/-- Settles O39: what SW adds to the sequential view is its architectural effect. -/
theorem swTakesEffect : Obligations.SwTakesEffect := by
  unfold Obligations.SwTakesEffect
  exact fun rt rs imm s hinv hcoh hh hpath => exec_takes_effect (.sw rt rs imm) hinv hcoh hh hpath

/-- Settles O40: the effect of BEQ, its condition decided either way. -/
theorem beqTakesEffect : Obligations.BeqTakesEffect := by
  unfold Obligations.BeqTakesEffect
  intro rs rt imm s hinv hcoh hh hpath
  obtain ⟨t, hexec, hview⟩ := exec_takes_effect (.beq rs rt imm) hinv hcoh hh hpath
  refine ⟨t, hexec, fun heq => ?_, fun hne => ?_⟩
  · simp [hview, archEffect, archBeq, branchCondition, heq, tally, branchTarget]
  · simp [hview, archEffect, archBeq, branchCondition, hne, tally]

/-- Settles O41: what NOP adds to the sequential view is its architectural effect, the pc alone. -/
theorem nopTakesEffect : Obligations.NopTakesEffect := by
  unfold Obligations.NopTakesEffect
  exact fun s hinv hcoh hh hpath => exec_takes_effect .nop hinv hcoh hh hpath

end Sys2Proof.Machine
end

section
/-! SUPPORT. Proofs of the statements about the passage of an instruction through an empty pipeline (pipeline paths of
spec/41_alu.md to spec/44_nop.md): the states it passes, and what it has done on each of the five edges. -/

namespace Sys2Proof.Machine

/-- The state after one edge with what Fetch gives. -/
def afterEdge (s : State) : State := clocked (fetch s.program s.pc) s

/-- The state `k` edges after the one on which `i` enters the pipeline. -/
def passing (i : Instr) (s : State) : Nat → State
  | 0 => clocked (some (presented i s)) s
  | k + 1 => afterEdge (passing i s k)

theorem step_eq_afterEdge {s : State} (hh : s.halted = false) (hcomplete : s.idex.all latchComplete = true) :
    step s = .next (afterEdge s) := by
  rw [step_eq_edge]
  exact edge_next hh hcomplete

section Passage
variable (i : Instr) {s : State}

/-! The latch that holds the instruction -/

theorem not_stalls_of_drained (hdrained : s.Drained) : stalls s = false := not_stalls_of_bubble (.inl hdrained.1)

theorem not_branchTaken_of_drained (hdrained : s.Drained) : branchTaken s = false :=
  not_branchTaken_of_bubble hdrained.2.1

theorem newPc_of_drained (hdrained : s.Drained) : newPc s = s.pc + 4 :=
  (newPc_of_not_taken (not_branchTaken_of_drained hdrained)).trans
    (pcCandidate_of_no_stall (not_stalls_of_drained hdrained))

/-- After the first edge the instruction is in IF/ID, alone. -/
theorem passing_fetched (hdrained : s.Drained) :
    (passing i s 0).ifid = some ⟨presented i s, s.pc⟩ ∧ (passing i s 0).idex = none ∧ (passing i s 0).exmem = none ∧
      (passing i s 0).memwb = none := by
  refine ⟨newIfId_of_fetch (not_stalls_of_drained hdrained) (not_branchTaken_of_drained hdrained), ?_,
    newExMem_of_bubble hdrained.2.1, newMemWb_of_bubble hdrained.2.2.1⟩
  show newIdEx s = none
  simp [newIdEx, builtIdEx, hdrained.1]

/-- After the second edge it is in ID/EX, with nothing older. -/
theorem passing_decoded (hdrained : s.Drained) :
    (passing i s 1).idex = some (decoded (passing i s 1).x ⟨presented i s, s.pc⟩) ∧ (passing i s 1).exmem = none ∧
      (passing i s 1).memwb = none := by
  obtain ⟨hifid, hidex, hexmem, -⟩ := passing_fetched i hdrained
  exact ⟨newIdEx_of_decode hifid (not_stalls_of_bubble (.inr hidex)) (not_branchTaken_of_bubble hidex),
    newExMem_of_bubble hidex, newMemWb_of_bubble hexmem⟩

/-- After the third edge it is in EX/MEM, with nothing older. -/
theorem passing_executed (hdrained : s.Drained) :
    (∃ e, (passing i s 2).exmem = some e) ∧ (passing i s 2).memwb = none := by
  obtain ⟨hidex, hexmem, -⟩ := passing_decoded i hdrained
  exact ⟨⟨_, newExMem_of_idex hidex⟩, newMemWb_of_bubble hexmem⟩

/-- After the fourth edge it is in MEM/WB. -/
theorem passing_accessed (hdrained : s.Drained) : ∃ w, (passing i s 3).memwb = some w := by
  obtain ⟨⟨e, hexmem⟩, -⟩ := passing_executed i hdrained
  exact ⟨_, newMemWb_of_exmem hexmem⟩

/-! The machine runs while the instruction is in it -/

theorem passing_latchComplete (k : Nat) : (passing i s k).idex.all latchComplete = true := by
  cases k <;> exact latchComplete_clocked _ _

/-- A state an edge leaves with a filled latch is not halted (R154). -/
theorem clocked_not_halted {v : Option Record}
    (hfilled : ¬((clocked v s).ifid = none ∧ (clocked v s).idex = none ∧ (clocked v s).exmem = none ∧
      (clocked v s).memwb = none)) : (clocked v s).halted = false := by
  refine Bool.eq_false_iff.mpr fun hhalted => hfilled ?_
  obtain ⟨hifid, hidex, hexmem, hmemwb, -⟩ := haltTest_iff.mp hhalted
  exact ⟨hifid, hidex, hexmem, hmemwb⟩

theorem passing_not_halted (hdrained : s.Drained) {k : Nat} (hk : k < 4) : (passing i s k).halted = false := by
  obtain ⟨hifid, -⟩ := passing_fetched i hdrained
  obtain ⟨hidex, -⟩ := passing_decoded i hdrained
  obtain ⟨⟨e, hexmem⟩, -⟩ := passing_executed i hdrained
  obtain ⟨w, hmemwb⟩ := passing_accessed i hdrained
  match k with
  | 0 => exact clocked_not_halted fun ⟨hnone, _⟩ => nomatch hifid.symm.trans hnone
  | 1 => exact clocked_not_halted fun ⟨_, hnone, _⟩ => nomatch hidex.symm.trans hnone
  | 2 => exact clocked_not_halted fun ⟨_, _, hnone, _⟩ => nomatch hexmem.symm.trans hnone
  | 3 => exact clocked_not_halted fun ⟨_, _, _, hnone⟩ => nomatch hmemwb.symm.trans hnone

theorem exec_passing (hdrained : s.Drained) (hh : s.halted = false) : exec i s = .next (passing i s 0) := by
  rw [exec_eq_edge]
  exact edge_next hh (by rw [hdrained.2.1]; rfl)

theorem step_passing (hdrained : s.Drained) {k : Nat} (hk : k < 4) :
    step (passing i s k) = .next (passing i s (k + 1)) :=
  step_eq_afterEdge (passing_not_halted i hdrained hk) (passing_latchComplete i k)

theorem run_passing (hdrained : s.Drained) {n k : Nat} (hk : k + n ≤ 4) :
    core.run n (passing i s k) = .next (passing i s (k + n)) := by
  induction n generalizing k with
  | zero => rfl
  | succ n ih =>
    rw [core_run_succ (step_passing i hdrained (by omega)), ih (by omega)]
    congr 2
    omega

/-! What it has done -/

theorem behindEx_of_drained (hdrained : s.Drained) : behindEx s = settled s := by
  rw [settled_of_bubble hdrained.1, behindId_of_bubble hdrained.2.1]

theorem behindEx_decoded (hdrained : s.Drained) :
    behindEx (passing i s 1) = { settled s with pc := s.pc + 8 } := by
  obtain ⟨hifid, hidex, -⟩ := passing_fetched i hdrained
  have hpc : newPc (passing i s 0) = s.pc + 8 := by
    rw [newPc_of_not_taken (not_branchTaken_of_bubble hidex),
      pcCandidate_of_no_stall (not_stalls_of_bubble (.inr hidex))]
    show newPc s + 4 = s.pc + 8
    rw [newPc_of_drained hdrained]
    omega
  rw [passing, afterEdge, behindEx_clocked_bubble _ hidex, hpc, passing, behindEx_clocked_bubble _ hdrained.2.1,
    behindEx_of_drained hdrained]

theorem operandsCurrent_decoded (hdrained : s.Drained) :
    OperandsCurrent (passing i s 1) (decoded (passing i s 1).x ⟨presented i s, s.pc⟩) := by
  obtain ⟨-, hexmem, -⟩ := passing_decoded i hdrained
  have hready : ∀ r, NoPendingLoad (passing i s 1) r := fun r e he => nomatch hexmem.symm.trans he
  exact ⟨operandOf_eq_slotValue fun r _ _ => hready r, operandOf_eq_slotValue fun r _ _ => hready r⟩

theorem passing_params (k : Nat) : (passing i s k).params = s.params := by
  induction k with
  | zero => rfl
  | succ k ih => exact ih

/-- On the third edge EX completes the instruction: what is behind EX is its architectural effect. -/
theorem behindEx_executed (hdrained : s.Drained) :
    behindEx (passing i s 2) = { archEffect s.params i (settled s) with pc := newPc (passing i s 1) } := by
  obtain ⟨hidex, -⟩ := passing_decoded i hdrained
  have heffect : completeFrom s.params (presented i s) s.pc { settled s with pc := s.pc + 8 } =
      archEffect s.params i (settled s) := by
    rw [completeFrom, presented_instr, settledWhenDrained s hdrained]
  rw [passing, afterEdge, behindEx_clocked _ hidex ⟨rfl, rfl, rfl⟩ (operandsCurrent_decoded i hdrained),
    behindEx_decoded i hdrained, passing_params]
  exact congrArg (fun a : Arch => { a with pc := newPc (passing i s 1) }) heffect

/-- After the fourth edge data memory is that of the instruction's effect. -/
theorem passing_mem (hdrained : s.Drained) : (passing i s 3).mem = (archEffect s.params i (settled s)).mem :=
  congrArg Arch.mem (behindEx_executed i hdrained)

/-- After the fifth edge the register file is that of the instruction's effect. -/
theorem passing_x (hdrained : s.Drained) : (passing i s 4).x = (archEffect s.params i (settled s)).x :=
  congrArg Arch.x (behindEx_executed i hdrained)

theorem passing_pc (hdrained : s.Drained) : (passing i s 0).pc = s.pc + 4 := newPc_of_drained hdrained

/-- WB counts the instruction on the fifth edge and nothing before. -/
theorem passing_completed (hdrained : s.Drained) :
    (passing i s 4).stats.instructionsCompleted = s.stats.instructionsCompleted + 1 := by
  obtain ⟨-, -, -, hfetched⟩ := passing_fetched i hdrained
  obtain ⟨-, -, hdecoded⟩ := passing_decoded i hdrained
  obtain ⟨-, hexecuted⟩ := passing_executed i hdrained
  obtain ⟨w, haccessed⟩ := passing_accessed i hdrained
  have hentry : (passing i s 0).stats.instructionsCompleted = s.stats.instructionsCompleted :=
    (newStats_instructionsCompleted s).trans (by rw [hdrained.2.2.2]; rfl)
  have hedge : ∀ k, (passing i s (k + 1)).stats.instructionsCompleted =
      (passing i s k).stats.instructionsCompleted + if (passing i s k).memwb.isNone = true then 0 else 1 :=
    fun k => newStats_instructionsCompleted (passing i s k)
  simp [hedge, hentry, hfetched, hdecoded, hexecuted, haccessed]

/-- The five edges of an instruction through an empty pipeline. -/
theorem exists_passage (hdrained : s.Drained) (hh : s.halted = false) :
    ∃ s1 s4 s5 : State, exec i s = .next s1 ∧ core.run 3 s1 = .next s4 ∧ step s4 = .next s5 ∧ s1.pc = s.pc + 4 ∧
      s4.mem = (archEffect s.params i (settled s)).mem ∧ s5.x = (archEffect s.params i (settled s)).x ∧
      s5.stats.instructionsCompleted = s.stats.instructionsCompleted + 1 :=
  ⟨_, _, _, exec_passing i hdrained hh, run_passing i hdrained (by decide), step_passing i hdrained (by decide),
    passing_pc i hdrained, passing_mem i hdrained, passing_x i hdrained, passing_completed i hdrained⟩

end Passage

/-- Settles O42: the effect of each of the four, from the registers of the empty pipeline. -/
theorem aluInstructionsPassThrough : Obligations.AluInstructionsPassThrough := by
  unfold Obligations.AluInstructionsPassThrough
  intro rd rs rt s hdrained hh p hp
  have hpassage := fun i => exists_passage i hdrained hh
  rw [settledWhenDrained s hdrained] at hpassage
  simp only [List.mem_cons, List.not_mem_nil, or_false] at hp
  rcases hp with rfl | rfl | rfl | rfl <;> exact hpassage _

/-- Settles O43: the effect of LW, from the registers and memory of the empty pipeline. -/
theorem lwPassesThrough : Obligations.LwPassesThrough := by
  unfold Obligations.LwPassesThrough
  intro rt rs imm s hdrained hh
  have hpassage := exists_passage (.lw rt rs imm) hdrained hh
  rw [settledWhenDrained s hdrained] at hpassage
  exact hpassage

/-- Settles O44: the effect of SW, from the registers and memory of the empty pipeline. -/
theorem swPassesThrough : Obligations.SwPassesThrough := by
  unfold Obligations.SwPassesThrough
  intro rt rs imm s hdrained hh
  have hpassage := exists_passage (.sw rt rs imm) hdrained hh
  rw [settledWhenDrained s hdrained] at hpassage
  exact hpassage

/-- Settles O46; that NOP is no bubble is what the first edge leaves in IF/ID. -/
theorem nopPassesThrough : Obligations.NopPassesThrough := by
  unfold Obligations.NopPassesThrough
  intro s hdrained hh
  have hmem := passing_mem .nop hdrained
  have hx := passing_x .nop hdrained
  rw [settledWhenDrained s hdrained] at hmem hx
  refine ⟨_, _, _, exec_passing .nop hdrained hh, run_passing .nop hdrained (by decide),
    step_passing .nop hdrained (by decide), passing_pc .nop hdrained, ?_, hmem, hx, passing_completed .nop hdrained⟩
  rw [(passing_fetched .nop hdrained).1]
  exact Option.some_ne_none _

/-! BEQ -/

section Beq
variable (rs rt : Reg) (imm : Word) {s : State}

/-- What an instruction presents stands at the pc of a well-formed machine. -/
theorem presented_pc (i : Instr) (hinv : s.Inv) : (presented i s).pc = s.pc := by
  unfold presented
  split
  · next r hfetch =>
    split
    · exact fetch_pc_eq hinv.2.1 hinv.pc_aligned hfetch
    · rfl
  · rfl

/-- The third edge takes the branch exactly if the two registers are equal. -/
theorem branchTaken_passing (hdrained : s.Drained) :
    branchTaken (passing (.beq rs rt imm) s 1) = branchCondition (readReg s.x rs) (readReg s.x rt) := by
  obtain ⟨hidex, -⟩ := passing_decoded (.beq rs rt imm) hdrained
  have hregs : regsBehindEx (passing (.beq rs rt imm) s 1) = s.x := by
    have hbehind := congrArg Arch.x (behindEx_decoded (.beq rs rt imm) hdrained)
    rw [settledWhenDrained s hdrained] at hbehind
    exact hbehind
  rw [branchTaken_eq_branchTakenIn hidex,
    branchTakenIn_eq_archTaken ⟨rfl, rfl, rfl⟩ (operandsCurrent_decoded _ hdrained), hregs]
  show archTaken (presented (.beq rs rt imm) s).instr s.x = _
  rw [presented_instr]
  rfl

/-- Taken, the third edge sends the pc to the target. -/
theorem newPc_passing_of_taken (hinv : s.Inv) (hdrained : s.Drained)
    (htaken : branchTaken (passing (.beq rs rt imm) s 1) = true) :
    newPc (passing (.beq rs rt imm) s 1) = s.pc + 4 + 4 * imm.toInt := by
  obtain ⟨hidex, -⟩ := passing_decoded (.beq rs rt imm) hdrained
  obtain ⟨target, htarget, hto⟩ := redirect_of_taken hidex (latchComplete_decoded _ _)
    ((branchTaken_eq_branchTakenIn hidex).symm.trans htaken)
  have hbeq : targetOf (presented (.beq rs rt imm) s) = some (s.pc + 4 + 4 * imm.toInt) := by
    rw [targetOf, presented_instr, presented_pc _ hinv]
    rfl
  rw [newPc_of_redirect hto]
  exact Option.some.inj (htarget.symm.trans hbeq)

/-- Not taken, the third edge fetches on: BEQ is no load, so nothing stalls behind it. -/
theorem newPc_passing_of_not_taken (hdrained : s.Drained)
    (htaken : branchTaken (passing (.beq rs rt imm) s 1) = false) :
    newPc (passing (.beq rs rt imm) s 1) = s.pc + 12 := by
  obtain ⟨hidex, -⟩ := passing_decoded (.beq rs rt imm) hdrained
  have hstall : stalls (passing (.beq rs rt imm) s 1) = false := Bool.eq_false_iff.mpr fun hstall => by
    obtain ⟨f, d, r, -, hd, hread, -⟩ := stalls_iff.mp hstall
    obtain rfl := Option.some.inj (hidex.symm.trans hd)
    have hread : (ctrlOf (presented (.beq rs rt imm) s).instr).memRead = true := hread
    rw [presented_instr] at hread
    cases hread
  have hpc : (passing (.beq rs rt imm) s 1).pc = s.pc + 8 :=
    congrArg Arch.pc (behindEx_decoded (.beq rs rt imm) hdrained)
  rw [newPc_of_not_taken htaken, pcCandidate_of_no_stall hstall, hpc]
  omega

end Beq

/-- Settles O45: the third edge decides by the registers of the empty pipeline; memory and registers are those of the
effect of BEQ, which has none on them. -/
theorem beqPassesThrough : Obligations.BeqPassesThrough := by
  unfold Obligations.BeqPassesThrough
  intro rs rt imm s hinv hdrained hh
  have hbehind := behindEx_executed (.beq rs rt imm) hdrained
  have hmem := passing_mem (.beq rs rt imm) hdrained
  have hx := passing_x (.beq rs rt imm) hdrained
  have htaken := branchTaken_passing rs rt imm hdrained
  rw [settledWhenDrained s hdrained] at hbehind hmem hx
  have hmiss : (passing (.beq rs rt imm) s 2).stats.branchMispredictions = _ :=
    congrArg Arch.branchMispredictions hbehind
  refine ⟨_, _, _, _, exec_passing _ hdrained hh, run_passing _ hdrained (by decide),
    step_passing _ hdrained (by decide), step_passing _ hdrained (by decide), congrArg Arch.branchCount hbehind,
    fun heq => ?taken, fun hne => ?notTaken, hmem, hx, passing_completed _ hdrained⟩
  case taken =>
    have htaken : branchTaken (passing (.beq rs rt imm) s 1) = true := by simp [htaken, branchCondition, heq]
    refine ⟨newPc_passing_of_taken rs rt imm hinv hdrained htaken, newIfId_of_taken htaken, newIdEx_of_taken htaken, ?_⟩
    simpa [archEffect, archBeq, branchCondition, heq, tally] using hmiss
  case notTaken =>
    have htaken : branchTaken (passing (.beq rs rt imm) s 1) = false := by simp [htaken, branchCondition, hne]
    refine ⟨newPc_passing_of_not_taken rs rt imm hdrained htaken, ?_⟩
    simpa [archEffect, archBeq, branchCondition, hne, tally] using hmiss

end Sys2Proof.Machine
end

section
/-! SUPPORT. Proofs of the statements about the assembler (spec/30_encoding.md R94 to R112): how pass 1 numbers lines
and instructions, what pass 2 makes of one instruction part, and from both what stands in the result of `parse`. -/

namespace Sys2Proof.Machine

/-! Pass 1 (R94 to R100) -/

/-- A kind of error that pass 1 reports (R97, R98). -/
def LabelErrorKind (e : ParseErrorKind) : Prop := e = .invalidLabel ∨ e = .duplicateLabel

theorem bindLabel_error {labels : Labels} {index : Nat} {candidate : Option (List Char)} {e : ParseErrorKind}
    (h : (bindLabel labels index candidate).2 = some e) : LabelErrorKind e := by
  unfold bindLabel at h
  split at h
  · cases h
  · split at h
    · split at h
      · exact .inr (Option.some.inj h).symm
      · cases h
    · exact .inl (Option.some.inj h).symm

/-- The lines pass 1 hands over: numbered from `n`, those with an instruction part carrying the instruction indices
from `index`, each with at most a label error. -/
def Numbered : Nat → Nat → List ScannedLine → Prop
  | _, _, [] => True
  | n, index, s :: rest =>
    s.line = n ∧ (∀ e, s.labelError = some e → LabelErrorKind e) ∧
      ((s.part = none ∧ Numbered (n + 1) index rest) ∨
        ((∃ part, s.part = some (index, part)) ∧ Numbered (n + 1) (index + 1) rest))

/-- Pass 1 on one line, then on the lines behind it. -/
theorem scanLines_cons (n index : Nat) (labels : Labels) (l : List Char) (rest : List (List Char)) :
    (scanLines n index labels (l :: rest)).2 =
      { line := n
        labelError := (bindLabel labels index (splitLabel (strippedLine l)).1).2
        part :=
          if (splitLabel (strippedLine l)).2.isEmpty = true then none
          else some (index, (splitLabel (strippedLine l)).2) } ::
        (scanLines (n + 1) (if (splitLabel (strippedLine l)).2.isEmpty = true then index else index + 1)
          (bindLabel labels index (splitLabel (strippedLine l)).1).1 rest).2 := rfl

theorem numbered_scanLines (n index : Nat) (labels : Labels) (lines : List (List Char)) :
    Numbered n index (scanLines n index labels lines).2 := by
  induction lines generalizing n index labels with
  | nil => trivial
  | cons l rest ih =>
    rw [scanLines_cons]
    refine ⟨rfl, fun e => bindLabel_error, ?_⟩
    by_cases hempty : (splitLabel (strippedLine l)).2.isEmpty = true
    · rw [if_pos hempty, if_pos hempty]
      exact .inl ⟨rfl, ih _ _ _⟩
    · rw [if_neg hempty, if_neg hempty]
      exact .inr ⟨⟨_, rfl⟩, ih _ _ _⟩

theorem Numbered.le_line {n index : Nat} {lines : List ScannedLine} (h : Numbered n index lines) :
    ∀ s ∈ lines, n ≤ s.line := by
  induction lines generalizing n index with
  | nil => simp
  | cons s rest ih =>
    obtain ⟨hline, -, hrest⟩ := h
    intro s' hs'
    rcases List.mem_cons.mp hs' with rfl | hs'
    · exact hline.ge
    · rcases hrest with ⟨-, hrest⟩ | ⟨-, hrest⟩ <;> exact (Nat.le_succ n).trans (ih hrest s' hs')

theorem Numbered.lines_rise {n index : Nat} {lines : List ScannedLine} (h : Numbered n index lines) :
    lines.Pairwise fun s s' => s.line < s'.line := by
  induction lines generalizing n index with
  | nil => exact List.Pairwise.nil
  | cons s rest ih =>
    obtain ⟨hline, -, ⟨-, hrest⟩ | ⟨-, hrest⟩⟩ := h <;>
      exact List.pairwise_cons.mpr ⟨fun s' hs' => hline ▸ hrest.le_line s' hs', ih hrest⟩

theorem Numbered.labelError {n index : Nat} {lines : List ScannedLine} (h : Numbered n index lines) :
    ∀ s ∈ lines, ∀ e, s.labelError = some e → LabelErrorKind e := by
  induction lines generalizing n index with
  | nil => simp
  | cons s rest ih =>
    obtain ⟨-, hlabel, hrest⟩ := h
    intro s' hs'
    rcases List.mem_cons.mp hs' with rfl | hs'
    · exact hlabel
    · rcases hrest with ⟨-, hrest⟩ | ⟨-, hrest⟩ <;> exact ih hrest s' hs'

/-! Operands (R103 to R106) -/

/-- What a pass-2 function can answer: a value with the property, or an error of no label kind. -/
def Answers {α : Type} (ok : α → Prop) : Except ParseErrorKind α → Prop
  | .ok a => ok a
  | .error e => ¬LabelErrorKind e

theorem not_labelErrorKind {e : ParseErrorKind} (hinvalid : e ≠ .invalidLabel) (hduplicate : e ≠ .duplicateLabel) :
    ¬LabelErrorKind e := fun h => h.elim hinvalid hduplicate

theorem registerToken_lt {l : List Char} {r : Nat} (h : registerToken l = some r) : r < 32 := by
  unfold registerToken at h
  split at h
  · split at h
    · split at h
      · split at h
        · next hlt => exact Option.some.inj h ▸ hlt
        · cases h
      · cases h
    · cases h
  · cases h

theorem registerOperand_answers (l : List Char) : Answers (· < 32) (registerOperand l) := by
  unfold registerOperand
  split
  · next r hr => exact registerToken_lt hr
  · exact not_labelErrorKind (by decide) (by decide)

theorem memoryOperand_answers (l : List Char) : Answers (fun m : Int × Nat => m.2 < 32) (memoryOperand l) := by
  unfold memoryOperand
  split
  · dsimp only
    split
    · split
      · next r hr => exact registerToken_lt hr
      · exact not_labelErrorKind (by decide) (by decide)
    · exact not_labelErrorKind (by decide) (by decide)
  · exact not_labelErrorKind (by decide) (by decide)

theorem branchOperand_answers (labels : Labels) (pc : Int) (l : List Char) :
    Answers (fun _ => True) (branchOperand labels pc l) := by
  unfold branchOperand
  split
  · trivial
  · split
    · trivial
    · exact not_labelErrorKind (by decide) (by decide)

theorem threeRegisters_answers (a b c : List Char) :
    Answers (fun p : Nat × Nat × Nat => p.1 < 32 ∧ p.2.1 < 32 ∧ p.2.2 < 32) (threeRegisters a b c) := by
  have ha := registerOperand_answers a
  have hb := registerOperand_answers b
  have hc := registerOperand_answers c
  unfold threeRegisters
  split
  · next e h => rwa [h] at ha
  · next e _ h => rwa [h] at hb
  · next e _ _ h => rwa [h] at hc
  · next x y z hx hy hz =>
    rw [hx] at ha
    rw [hy] at hb
    rw [hz] at hc
    exact ⟨ha, hb, hc⟩

/-! Records (R81, R83, R101, R102, R107) -/

/-- Well-formed at position `k` but for the range of its immediate. -/
def Assembled (k : Nat) (r : RawRecord) : Prop := r.immediateInRange = true → r.wellFormedAt k = true

section Assemble
variable (k : Nat) (text : String) (operands : List (List Char))

theorem assembleR_answers {op : Op} (hop : op = .add ∨ op = .sub ∨ op = .and ∨ op = .or) :
    Answers (Assembled k) (assembleR op (4 * (k : Int)) text operands) := by
  unfold assembleR
  split
  · next a b c =>
    have hregs := threeRegisters_answers a b c
    split
    · next rd rs rt h =>
      rw [h] at hregs
      obtain ⟨hrd, hrs, hrt⟩ := hregs
      intro himm
      rcases hop with rfl | rfl | rfl | rfl <;>
        simp_all [RawRecord.wellFormedAt, RawRecord.fieldsMatchFormat, RawRecord.registersInRange,
          RawRecord.targetAgrees]
    · next e h => rwa [h] at hregs
  · exact not_labelErrorKind (by decide) (by decide)

theorem assembleM_answers {op : Op} (hop : op = .lw ∨ op = .sw) :
    Answers (Assembled k) (assembleM op (4 * (k : Int)) text operands) := by
  unfold assembleM
  split
  · next a m =>
    have hreg := registerOperand_answers a
    have hmem := memoryOperand_answers m
    split
    · next e h => rwa [h] at hreg
    · next e _ h => rwa [h] at hmem
    · next rt offset base hrt hbase =>
      rw [hrt] at hreg
      rw [hbase] at hmem
      intro himm
      rcases hop with rfl | rfl <;>
        simp_all [RawRecord.wellFormedAt, RawRecord.fieldsMatchFormat, RawRecord.registersInRange,
          RawRecord.targetAgrees, Answers]
  · exact not_labelErrorKind (by decide) (by decide)

theorem assembleB_answers (labels : Labels) :
    Answers (Assembled k) (assembleB labels (4 * (k : Int)) text operands) := by
  unfold assembleB
  split
  · next a b t =>
    have ha := registerOperand_answers a
    have hb := registerOperand_answers b
    have ht := branchOperand_answers labels (4 * (k : Int)) t
    split
    · next e h => rwa [h] at ha
    · next e _ h => rwa [h] at hb
    · next e _ _ h => rwa [h] at ht
    · next rs rt imm hrs hrt himm =>
      rw [hrs] at ha
      rw [hrt] at hb
      intro himm
      simp_all [RawRecord.wellFormedAt, RawRecord.fieldsMatchFormat, RawRecord.registersInRange,
        RawRecord.targetAgrees, Answers]
  · exact not_labelErrorKind (by decide) (by decide)

theorem assembleN_answers : Answers (Assembled k) (assembleN (4 * (k : Int)) text operands) := by
  unfold assembleN
  split
  · intro himm
    simp_all [RawRecord.wellFormedAt, RawRecord.fieldsMatchFormat, RawRecord.registersInRange, RawRecord.targetAgrees]
  · exact not_labelErrorKind (by decide) (by decide)

theorem assemblePart_answers (labels : Labels) (part : List Char) :
    Answers (Assembled k) (assemblePart labels k part) := by
  unfold assemblePart
  dsimp only
  split
  · exact not_labelErrorKind (by decide) (by decide)
  · exact assembleM_answers k _ _ (.inl rfl)
  · exact assembleM_answers k _ _ (.inr rfl)
  · exact assembleB_answers k _ _ labels
  · exact assembleN_answers k _ _
  · exact assembleR_answers k _ _ (.inl rfl)
  · exact assembleR_answers k _ _ (.inr (.inl rfl))
  · exact assembleR_answers k _ _ (.inr (.inr (.inl rfl)))
  · exact assembleR_answers k _ _ (.inr (.inr (.inr rfl)))

end Assemble

/-! Lines (R109, R110) -/

section Lines
variable (labels : Labels) {s : ScannedLine}

theorem lineErrors_of_no_part (h : s.part = none) :
    lineErrors labels s = s.labelError.toList.map (parseErrorAt s.line) := by
  simp [lineErrors, assembleLine, h]

theorem lineErrors_of_ok {index : Nat} {part : List Char} {r : RawRecord} (h : s.part = some (index, part))
    (hok : assemblePart labels index part = .ok r) :
    lineErrors labels s = s.labelError.toList.map (parseErrorAt s.line) := by
  simp [lineErrors, assembleLine, h, hok]

theorem lineErrors_of_error {index : Nat} {part : List Char} {e : ParseErrorKind} (h : s.part = some (index, part))
    (herror : assemblePart labels index part = .error e) :
    lineErrors labels s = s.labelError.toList.map (parseErrorAt s.line) ++ [parseErrorAt s.line e] := by
  simp [lineErrors, assembleLine, h, herror]

/-- The errors of a line: its label error, if there is one, then an error of no label kind, if there is one. -/
theorem lineErrors_eq (s : ScannedLine) :
    ∃ second : Option ParseErrorKind, (∀ e, second = some e → ¬LabelErrorKind e) ∧
      lineErrors labels s = (s.labelError.toList ++ second.toList).map (parseErrorAt s.line) := by
  cases hpart : s.part with
  | none => exact ⟨none, by simp, by simp [lineErrors_of_no_part labels hpart]⟩
  | some p =>
    obtain ⟨index, part⟩ := p
    have hanswers := assemblePart_answers index labels part
    cases hresult : assemblePart labels index part with
    | ok r => exact ⟨none, by simp, by simp [lineErrors_of_ok labels hpart hresult]⟩
    | error e =>
      rw [hresult] at hanswers
      refine ⟨some e, fun e' h => ?_, by simp [lineErrors_of_error labels hpart hresult]⟩
      exact Option.some.inj h ▸ hanswers

theorem line_of_mem_lineErrors {e : ParseError} (h : e ∈ lineErrors labels s) : e.line = s.line := by
  unfold lineErrors at h
  obtain ⟨kind, -, rfl⟩ := List.mem_map.mp h
  rfl

/-- Two errors stand in the order of R109. -/
def InErrorOrder (a b : ParseError) : Prop :=
  a.line < b.line ∨ (a.line = b.line ∧ LabelErrorKind a.kind ∧ ¬LabelErrorKind b.kind)

theorem lineErrors_inOrder (hlabel : ∀ e, s.labelError = some e → LabelErrorKind e) :
    (lineErrors labels s).Pairwise InErrorOrder := by
  obtain ⟨second, hsecond, herrors⟩ := lineErrors_eq labels s
  rw [herrors]
  cases hfirst : s.labelError with
  | none => cases second <;> simp
  | some e =>
    cases second with
    | none => simp
    | some e' => simpa [InErrorOrder, parseErrorAt] using ⟨hlabel e hfirst, hsecond e' rfl⟩

theorem errors_inOrder {n index : Nat} {lines : List ScannedLine} (h : Numbered n index lines) :
    (lines.flatMap (lineErrors labels)).Pairwise InErrorOrder := by
  refine List.pairwise_flatMap.mpr ⟨fun s hs => lineErrors_inOrder labels (h.labelError s hs), ?_⟩
  refine h.lines_rise.imp fun {s s'} hlt a ha b hb => .inl ?_
  rwa [line_of_mem_lineErrors labels ha, line_of_mem_lineErrors labels hb]

theorem lineRecord_of_no_part (h : s.part = none) : lineRecord labels s = [] := by
  simp [lineRecord, assembleLine, h]

theorem lineRecord_of_ok {index : Nat} {part : List Char} {r : RawRecord} (h : s.part = some (index, part))
    (hok : assemblePart labels index part = .ok r) : lineRecord labels s = [r] := by
  simp [lineRecord, assembleLine, h, hok]

/-- Without an error every instruction part gives its record, at its own index. -/
theorem records_wellFormed {n index : Nat} {lines : List ScannedLine} (h : Numbered n index lines)
    (herrors : lines.flatMap (lineErrors labels) = [])
    (himm : ∀ r ∈ lines.flatMap (lineRecord labels), r.immediateInRange = true) :
    rawWellFormedFrom index (lines.flatMap (lineRecord labels)) = true := by
  induction lines generalizing n index with
  | nil => rfl
  | cons s rest ih =>
    rw [List.flatMap_cons, List.append_eq_nil_iff] at herrors
    obtain ⟨hline, hrestErrors⟩ := herrors
    rw [List.flatMap_cons] at himm ⊢
    have hrestImm : ∀ r ∈ rest.flatMap (lineRecord labels), r.immediateInRange = true :=
      fun r hr => himm r (List.mem_append_right _ hr)
    obtain ⟨-, -, ⟨hpart, hrest⟩ | ⟨⟨part, hpart⟩, hrest⟩⟩ := h
    · rw [lineRecord_of_no_part labels hpart, List.nil_append]
      exact ih hrest hrestErrors hrestImm
    · have hanswers := assemblePart_answers index labels part
      cases hresult : assemblePart labels index part with
      | error e => simp [lineErrors_of_error labels hpart hresult] at hline
      | ok r =>
        rw [hresult] at hanswers
        rw [lineRecord_of_ok labels hpart hresult] at himm ⊢
        exact Bool.and_eq_true_iff.mpr ⟨hanswers (himm r (by simp)), ih hrest hrestErrors hrestImm⟩

end Lines

/-! The result of `parse` -/

section Parse
variable (text : String)

/-- The label table and the lines that pass 1 gives for a text. -/
def scanned (text : String) : Labels × List ScannedLine := scanLines 1 0 [] (sourceLines text.toList)

theorem parse_errors : (parse text).errors = (scanned text).2.flatMap (lineErrors (scanned text).1) := rfl

theorem parse_instructions : (parse text).instructions = (scanned text).2.flatMap (lineRecord (scanned text).1) := rfl

theorem numbered_scanned : Numbered 1 0 (scanned text).2 := numbered_scanLines 1 0 [] _

end Parse

/-- Settles O52: without an error every instruction part became a record, and pass 2 checks all of a record's
well-formedness but the range of its immediate. -/
theorem parserOutputIsWellFormed : Obligations.ParserOutputIsWellFormed := by
  unfold Obligations.ParserOutputIsWellFormed
  intro text herrors himm
  rw [parse_errors] at herrors
  rw [parse_instructions] at himm ⊢
  refine records_wellFormed _ (numbered_scanned text) herrors fun r hr => ?_
  rw [RawRecord.immediateInRange, Option.all_eq_true]
  exact fun v hv => decide_eq_true (himm r hr v hv)

/-- Settles O53: lines are numbered upwards, and on a line pass 1's error stands before pass 2's. -/
theorem parseErrorsInOrder : Obligations.ParseErrorsInOrder := by
  unfold Obligations.ParseErrorsInOrder
  intro text
  rw [parse_errors]
  refine (errors_inOrder _ (numbered_scanned text)).imp fun {a b} horder => ?_
  simpa [InErrorOrder, LabelErrorKind] using horder

end Sys2Proof.Machine
end
